-- ==== Sys2Proof/Word.lean ====
section
/-! DEFINITION. The word, "the unit of memory and registers" (00_scope.md R1). -/

namespace Sys2Proof

/-- An unsigned 16-bit value (00_scope.md R1). Nothing in the machine reads a word as signed. -/
abbrev Word := BitVec 16

end Sys2Proof
end

