-- ==== Sys2Proof/Syntax.lean ====
section
/-! DEFINITION. The instructions: one constructor of `Instr` per row of spec/opcode_table.json, over the twelve
operand forms of 40_operands.md. An instruction is what its FIRST word says (30_encoding.md R63); its operand words
stay in memory and are read when the operand is resolved (log 18). -/

namespace Sys2Proof

/-- The eight general registers, in index order A, B, C, X, Y, Z, I, J (10_state.md R10, R11; log 20). -/
inductive Reg where
  | a | b | c | x | y | z | i | j
deriving DecidableEq, Repr

/-- The operand codes 0x00..0x3F by their form (30_encoding.md R64). -/
inductive Operand where
  /-- Codes 0x00..0x07, a general register (R93). -/
  | reg (r : Reg)
  /-- Codes 0x08..0x0F, memory at the register's value (R94). -/
  | regInd (r : Reg)
  /-- Codes 0x10..0x17, memory at next word plus register (R95). -/
  | indexed (r : Reg)
  /-- Code 0x18, memory at SP, then SP + 1 (R96). -/
  | pop
  /-- Code 0x19, memory at SP (R97). -/
  | peek
  /-- Code 0x1A, SP - 1, then memory at SP (R98). -/
  | push
  /-- Code 0x1B, the stack pointer (R99). -/
  | sp
  /-- Code 0x1C, the program counter (R100). -/
  | pc
  /-- Code 0x1D, the overflow register (R101). -/
  | o
  /-- Code 0x1E, memory at the next word (R102). -/
  | absolute
  /-- Code 0x1F, the next word as a literal (R103). -/
  | nextLit
  /-- Codes 0x20..0x3F, the literals 0..31 (R104). -/
  | smallLit (v : BitVec 5)
deriving DecidableEq, Repr

/-- The instructions: fifteen basic opcodes with operands `a` (destination) and `b` (source), JSR with its one
operand, and the reserved extended words with the `xop` and operand code they hold (30_encoding.md R69 to R71). -/
inductive Instr where
  | set (a b : Operand)
  | add (a b : Operand)
  | sub (a b : Operand)
  | mul (a b : Operand)
  | div (a b : Operand)
  | mod (a b : Operand)
  | shl (a b : Operand)
  | shr (a b : Operand)
  | and (a b : Operand)
  | bor (a b : Operand)
  | xor (a b : Operand)
  | ife (a b : Operand)
  | ifn (a b : Operand)
  | ifg (a b : Operand)
  | ifb (a b : Operand)
  | jsr (a : Operand)
  | reserved (xop : BitVec 6) (a : Operand)
deriving DecidableEq, Repr

end Sys2Proof
end

