-- ==== Sys2Proof/WellFormed.lean ====
section
/-! DEFINITION. Which instructions the encoding can hold. Every operand form and register can be encoded
(30_encoding.md R64, R73); the one ill-formed instruction is a reserved extended word that claims JSR's `xop`. -/

namespace Sys2Proof

/-- The extended opcode of JSR (30_encoding.md R70). -/
def jsrXop : BitVec 6 := 0x01

/-- Does this operand's code take a next word: codes 0x10..0x17, 0x1E, 0x1F (30_encoding.md R65)? -/
def Operand.hasNextWord : Operand → Bool
  | .indexed _ | .absolute | .nextLit => true
  | .reg _ | .regInd _ | .pop | .peek | .push | .sp | .pc | .o | .smallLit _ => false

/-- The number of operand words the instruction consumes when it is executed. A reserved word resolves nothing and
consumes none (45_jsr_control.md R162; log 10). -/
def Instr.operandWords : Instr → Nat
  | .set a b | .add a b | .sub a b | .mul a b | .div a b | .mod a b | .shl a b | .shr a b
  | .and a b | .bor a b | .xor a b | .ife a b | .ifn a b | .ifg a b | .ifb a b =>
      a.hasNextWord.toNat + b.hasNextWord.toNat
  | .jsr a => a.hasNextWord.toNat
  | .reserved _ _ => 0

/-- An instruction the first-word encoding can hold: a reserved extended word has an `xop` other than JSR's
(30_encoding.md R70, R71). -/
def Instr.wellFormed : Instr → Bool
  | .reserved xop _ => xop != jsrXop
  | .set _ _ | .add _ _ | .sub _ _ | .mul _ _ | .div _ _ | .mod _ _ | .shl _ _ | .shr _ _
  | .and _ _ | .bor _ _ | .xor _ _ | .ife _ _ | .ifn _ _ | .ifg _ _ | .ifb _ _ | .jsr _ => true

/-- An instruction together with its operand words as they stand in a program: the first word can be encoded and
there are as many operand words as it consumes (30_encoding.md R60, R68). -/
def Instr.wellFormedWith (i : Instr) (operandWords : List Word) : Bool :=
  i.wellFormed && operandWords.length == i.operandWords

end Sys2Proof
end

