-- ==== Sys2Proof/Decode.lean ====
section
/-! DEFINITION. The decoder, total on all 65,536 first words (30_encoding.md R63) and on any list of words, and after
it the encoder (R61, R62). Bit 0 of a word is its least significant bit (92_eei_decisions.md D22). -/

namespace Sys2Proof

/-! ### Fields of the first word -/

/-- `w[3:0]`: the basic opcode, 0 for an extended word (30_encoding.md R61, R62). -/
def opField (w : Word) : BitVec 4 := w.extractLsb' 0 4

/-- `w[9:4]`: operand `a` of a basic word, `xop` of an extended one (30_encoding.md R61, R62). -/
def midField (w : Word) : BitVec 6 := w.extractLsb' 4 6

/-- `w[15:10]`: operand `b` of a basic word, operand `a` of an extended one (30_encoding.md R61, R62). -/
def highField (w : Word) : BitVec 6 := w.extractLsb' 10 6

/-! ### Operand codes -/

/-- The register of index `code mod 8` (30_encoding.md R64, 10_state.md R11). -/
def Reg.ofIndex (n : Nat) : Reg :=
  match n % 8 with
  | 0 => .a
  | 1 => .b
  | 2 => .c
  | 3 => .x
  | 4 => .y
  | 5 => .z
  | 6 => .i
  | _ => .j

/-- The register's index 0..7 (10_state.md R11). -/
def Reg.index : Reg → Nat
  | .a => 0
  | .b => 1
  | .c => 2
  | .x => 3
  | .y => 4
  | .z => 5
  | .i => 6
  | .j => 7

/-- The form an operand code stands for: the table of 30_encoding.md R64. -/
def Operand.ofCode (code : BitVec 6) : Operand :=
  let n := code.toNat
  if n < 0x08 then .reg (Reg.ofIndex n)
  else if n < 0x10 then .regInd (Reg.ofIndex n)
  else if n < 0x18 then .indexed (Reg.ofIndex n)
  else if n = 0x18 then .pop
  else if n = 0x19 then .peek
  else if n = 0x1A then .push
  else if n = 0x1B then .sp
  else if n = 0x1C then .pc
  else if n = 0x1D then .o
  else if n = 0x1E then .absolute
  else if n = 0x1F then .nextLit
  else .smallLit (BitVec.ofNat 5 (n - 0x20))

/-- `TakesWord(c)`: the operand codes that consume an extra word (30_encoding.md R65). -/
def takesWord (code : BitVec 6) : Bool :=
  (0x10 ≤ code.toNat && code.toNat ≤ 0x17) || code == 0x1E || code == 0x1F

/-- `Len(w)`: the length in words the skip takes from a first word, defined or reserved (30_encoding.md R66). -/
def lenOfWord (w : Word) : Nat :=
  if opField w ≠ 0 then 1 + (takesWord (midField w)).toNat + (takesWord (highField w)).toNat
  else 1 + (takesWord (highField w)).toNat

/-! ### Decoding -/

/-- `Decode(w)` (30_encoding.md R63): the instruction a first word stands for. -/
def decodeWord (w : Word) : Instr :=
  let a := Operand.ofCode (midField w)
  let b := Operand.ofCode (highField w)
  match (opField w).toNat with
  | 0x1 => .set a b
  | 0x2 => .add a b
  | 0x3 => .sub a b
  | 0x4 => .mul a b
  | 0x5 => .div a b
  | 0x6 => .mod a b
  | 0x7 => .shl a b
  | 0x8 => .shr a b
  | 0x9 => .and a b
  | 0xA => .bor a b
  | 0xB => .xor a b
  | 0xC => .ife a b
  | 0xD => .ifn a b
  | 0xE => .ifg a b
  | 0xF => .ifb a b
  | _ => if midField w = jsrXop then .jsr b else .reserved (midField w) b

/-- Why a list of words holds no instruction. Every first word does (30_encoding.md R73), so only the end of the list
can be in the way. -/
inductive DecodeError where
  /-- The list is empty: there is no first word. -/
  | noFirstWord
  /-- The list ends before the instruction's operand words do. -/
  | missingOperandWords
deriving DecidableEq, Repr

/-- An instruction read from the front of a list of words: the instruction, the operand words it consumes, and what
follows it. -/
structure Decoded where
  instr : Instr
  operandWords : List Word
  rest : List Word
deriving DecidableEq, Repr

/-- Reads the instruction at the front of a program, its first word and then the operand words of `a` and of `b`
(30_encoding.md R60, R68). -/
def decode : List Word → Except DecodeError Decoded
  | [] => .error .noFirstWord
  | w :: ws =>
    let i := decodeWord w
    if ws.length < i.operandWords then .error .missingOperandWords
    else .ok { instr := i, operandWords := ws.take i.operandWords, rest := ws.drop i.operandWords }

/-- The instruction an image of `nbits` bits stands for, in the opcode table's numbering: bits 15..0 are the first
word, bits 31..16 the second, bits 47..32 the third, and the bits at `nbits` and above are 0. -/
def decodeTableWord (nbits w : Nat) : Option Instr :=
  let image := w % 2 ^ nbits
  match decode [BitVec.ofNat 16 image, BitVec.ofNat 16 (image >>> 16), BitVec.ofNat 16 (image >>> 32)] with
  | .ok d => some d.instr
  | .error _ => none

/-! ### Encoding -/

/-- The operand code of a form (30_encoding.md R64). -/
def Operand.code : Operand → BitVec 6
  | .reg r => BitVec.ofNat 6 r.index
  | .regInd r => BitVec.ofNat 6 (0x08 + r.index)
  | .indexed r => BitVec.ofNat 6 (0x10 + r.index)
  | .pop => 0x18
  | .peek => 0x19
  | .push => 0x1A
  | .sp => 0x1B
  | .pc => 0x1C
  | .o => 0x1D
  | .absolute => 0x1E
  | .nextLit => 0x1F
  | .smallLit v => BitVec.ofNat 6 (0x20 + v.toNat)

/-- `(b << 10) | (a << 4) | op`, a basic first word (30_encoding.md R61). -/
def basicWord (op : BitVec 4) (a b : Operand) : Word :=
  (b.code.setWidth 16 <<< 10) ||| (a.code.setWidth 16 <<< 4) ||| op.setWidth 16

/-- `(a << 10) | (xop << 4)`, an extended first word (30_encoding.md R62). -/
def extendedWord (xop : BitVec 6) (a : Operand) : Word :=
  (a.code.setWidth 16 <<< 10) ||| (xop.setWidth 16 <<< 4)

/-- The first word of an instruction (30_encoding.md R69 to R71). -/
def encodeWord : Instr → Word
  | .set a b => basicWord 0x1 a b
  | .add a b => basicWord 0x2 a b
  | .sub a b => basicWord 0x3 a b
  | .mul a b => basicWord 0x4 a b
  | .div a b => basicWord 0x5 a b
  | .mod a b => basicWord 0x6 a b
  | .shl a b => basicWord 0x7 a b
  | .shr a b => basicWord 0x8 a b
  | .and a b => basicWord 0x9 a b
  | .bor a b => basicWord 0xA a b
  | .xor a b => basicWord 0xB a b
  | .ife a b => basicWord 0xC a b
  | .ifn a b => basicWord 0xD a b
  | .ifg a b => basicWord 0xE a b
  | .ifb a b => basicWord 0xF a b
  | .jsr a => extendedWord jsrXop a
  | .reserved xop a => extendedWord xop a

/-- The words of an instruction as they stand in a program: its first word, then its operand words, that of `a` before
that of `b` (30_encoding.md R60, R68). -/
def encode (i : Instr) (operandWords : List Word) : List Word :=
  encodeWord i :: operandWords

end Sys2Proof
end

