-- ==== Sys2Proof/Config.lean ====
section
/-! DEFINITION. What an implementation fixes (00_scope.md section 4): "The source fixes every size. None is left to
the implementation." The eight named parameters of that section stand at their defaults, which every rule assumes
(logs 6 to 11 and 13); nothing is left undefined, so there is no free value here (93_implementation_defined.md). -/

namespace Sys2Proof.Config

/-- MEM_WORDS, the number of words of memory (00_scope.md section 4; 10_state.md R16). -/
def memWords : Nat := 65536

/-- RESET_PC (10_state.md R30). -/
def resetPc : Word := 0x0000

/-- RESET_SP (10_state.md R30). -/
def resetSp : Word := 0xFFFF

/-- RESET_O (10_state.md R30). -/
def resetO : Word := 0x0000

/-- What an address that memory's list does not name reads as: the reset contents of memory (10_state.md R30). -/
def unlistedWord : Word := 0x0000

end Sys2Proof.Config
end

