-- ==== Sys2Proof/Machine/State.lean ====
section
/-! DEFINITION. The whole state of one block (10_state.md), as plain data, and its value after reset. -/

namespace Sys2Proof.Machine

/-- The eight general registers, all ordinary 16-bit words (10_state.md R10, R11). -/
structure Regs where
  a : Word
  b : Word
  c : Word
  x : Word
  y : Word
  z : Word
  i : Word
  j : Word
deriving DecidableEq, Repr

/-- One listed cell of memory: a word address and the word there. The word is the smallest unit the machine addresses
(20_memory.md R42; log 1). -/
abbrev MemCell := Nat × Word

/-- Memory as the list of the cells that differ from the reset contents, addresses strictly rising (20_memory.md R40;
10_state.md R16, R30). `Memory.wf` of Machine/Ops.lean says that this form holds. -/
abbrev Memory := List MemCell

/-- An operand reference (40_operands.md R90): where an operand lives, or an immediate's value. -/
inductive OpRef where
  | reg (r : Reg)
  | sp
  | pc
  | o
  | mem (addr : Word)
  | imm (v : Word)
deriving DecidableEq, Repr

/-- `pending_stage`, "the next per-cycle action to perform" (10_state.md R19). -/
inductive Stage where
  /-- Fetch, or skip when `skip` is true. -/
  | s0
  /-- Resolve operand `a`. -/
  | s1
  /-- Resolve operand `b`. -/
  | s2
  /-- Execute, first cycle. -/
  | s3
  /-- An idle cycle. -/
  | burn
deriving DecidableEq, Repr

/-- The machine's state: 10_state.md section 1, field by field, and one field of the model's own, `fetchAddr`. -/
structure State where
  /-- The general registers (R10, R11). -/
  regs : Regs
  /-- The program counter (R12). -/
  pc : Word
  /-- The stack pointer (R13). -/
  sp : Word
  /-- The overflow register (R14). -/
  o : Word
  /-- The memory (R16). -/
  mem : Memory
  /-- The current instruction word, 0 for none (R17). -/
  inst : Word
  /-- The resolved operand `a`, or absent (R18). -/
  aRef : Option OpRef
  /-- The resolved operand `b`, or absent (R18). -/
  bRef : Option OpRef
  /-- `pending_stage` (R19). -/
  stage : Stage
  /-- `burn_left`, the burn cycles still owed (R19). -/
  burnLeft : Nat
  /-- The next instruction is to be passed over (R20). -/
  skip : Bool
  /-- `cycle_counter`, the diagnostic count of elapsed cycles (R21; log 12). -/
  cycles : Nat
  /-- The MODEL's own field: the address of the first word of the last instruction fetched, which the retire report of
  47_host_facade.md R204 needs (log 3). -/
  fetchAddr : Word
deriving DecidableEq, Repr

/-- Why a step stops with a fault. The spec gives none (60_exceptions.md R220); the one fault stands for states that
no run reaches. -/
inductive Fault where
  /-- Raised by the execute stage of a cycle or of a step when `stage` is S3 and an operand reference that the
  instruction in `inst` needs is absent, a state contrary to 10_state.md R25. Safe: the model stops where no hardware
  state is (log 4). -/
  | operandAbsent
deriving DecidableEq, Repr

/-- Why a step is refused. -/
inductive Refusal where
  /-- Raised by an arm of `exec` for an instruction that has no meaning yet. No arm raises it. Safe. -/
  | notModelled (mnemonic : String)
deriving DecidableEq, Repr

/-- The machine right after reset (10_state.md R30, 70_reset_and_hazards.md R240). `fetchAddr` is the model's choice
(log 3). -/
def State.reset : State where
  regs := { a := 0, b := 0, c := 0, x := 0, y := 0, z := 0, i := 0, j := 0 }
  pc := Config.resetPc
  sp := Config.resetSp
  o := Config.resetO
  mem := []
  inst := 0
  aRef := none
  bRef := none
  stage := .s0
  burnLeft := 0
  skip := false
  cycles := 0
  fetchAddr := 0

end Sys2Proof.Machine
end

