-- ==== Sys2Proof/Machine/Ops.lean ====
section
/-! DEFINITION. The named operations on memory, registers, the program counter and the stack pointer. The machine has
no exception to take and none to return from (60_exceptions.md R220, R227, R228), so there is no such operation. -/

namespace Sys2Proof.Machine

/-! ### Memory -/

/-- The word listed for an address, or what an unlisted address reads as. -/
def Memory.lookup : Memory → Nat → Word
  | [], _ => Config.unlistedWord
  | (k, v) :: rest, a => if k = a then v else Memory.lookup rest a

/-- The list without any entry for the address. -/
def Memory.erase : Memory → Nat → Memory
  | [], _ => []
  | (k, v) :: rest, a => if k = a then Memory.erase rest a else (k, v) :: Memory.erase rest a

/-- The list with the word entered at its place by address, in place of an entry for that address. -/
def Memory.insert : Memory → Nat → Word → Memory
  | [], a, v => [(a, v)]
  | (k, w) :: rest, a, v =>
    if a < k then (a, v) :: (k, w) :: rest
    else if k = a then (a, v) :: rest
    else (k, w) :: Memory.insert rest a v

/-- `MemRead(addr, 1)` (20_memory.md R44). -/
def Memory.read (m : Memory) (addr : Word) : Word := Memory.lookup m addr.toNat

/-- `MemWrite(addr, 1, v)` (20_memory.md R44). Writing what an unlisted address reads as removes the entry. -/
def Memory.write (m : Memory) (addr v : Word) : Memory :=
  if v = Config.unlistedWord then Memory.erase m addr.toNat else Memory.insert m addr.toNat v

/-- The canonical form from address `lo` on: addresses strictly rise from `lo`, lie below `Config.memWords`, and no
entry holds what an unlisted address reads as. -/
def Memory.wfFrom : Nat → Memory → Bool
  | _, [] => true
  | lo, (k, v) :: rest =>
    lo ≤ k && k < Config.memWords && v != Config.unlistedWord && Memory.wfFrom (k + 1) rest

/-- The canonical form of memory: equal memories are equal lists. -/
def Memory.wf (m : Memory) : Bool := Memory.wfFrom 0 m

/-- The word at an address of the state's memory (20_memory.md R44). -/
def State.readMem (s : State) (addr : Word) : Word := s.mem.read addr

/-- The state with a word stored at an address (20_memory.md R44). -/
def State.writeMem (s : State) (addr v : Word) : State := { s with mem := s.mem.write addr v }

/-! ### Registers -/

/-- `x[i]` (10_state.md R10). -/
def Regs.get (x : Regs) : Reg → Word
  | .a => x.a
  | .b => x.b
  | .c => x.c
  | .x => x.x
  | .y => x.y
  | .z => x.z
  | .i => x.i
  | .j => x.j

/-- `x[i] <- v` (10_state.md R10). -/
def Regs.set (x : Regs) (r : Reg) (v : Word) : Regs :=
  match r with
  | .a => { x with a := v }
  | .b => { x with b := v }
  | .c => { x with c := v }
  | .x => { x with x := v }
  | .y => { x with y := v }
  | .z => { x with z := v }
  | .i => { x with i := v }
  | .j => { x with j := v }

/-- Reads a general register (10_state.md R10). -/
def State.getReg (s : State) (r : Reg) : Word := s.regs.get r

/-- Writes a general register (10_state.md R10). -/
def State.setReg (s : State) (r : Reg) (v : Word) : State := { s with regs := s.regs.set r v }

/-- `pc <- v` (10_state.md R12). -/
def State.setPc (s : State) (v : Word) : State := { s with pc := v }

/-- `sp <- v` (10_state.md R13). -/
def State.setSp (s : State) (v : Word) : State := { s with sp := v }

/-- `o <- v` (10_state.md R14). -/
def State.setO (s : State) (v : Word) : State := { s with o := v }

/-- `skip <- true` (10_state.md R20). -/
def State.setSkip (s : State) : State := { s with skip := true }

/-- `cycle_counter <- cycle_counter + n` (10_state.md R21). -/
def State.addCycles (s : State) (n : Nat) : State := { s with cycles := s.cycles + n }

/-! ### Program words -/

/-- The word at PC, which `NextWord()` returns (40_operands.md R91). -/
def State.wordAtPc (s : State) : Word := s.readMem s.pc

/-- The state after `NextWord()`: PC one further, modulo 2^16 (40_operands.md R91). -/
def State.advancePc (s : State) : State := s.setPc (s.pc + 1)

/-- The fetch of a first word seen by a whole instruction: PC moves past it, its one cycle is counted, and its address
is kept for the retire report (46_sequencer.md R173, R188; log 3). -/
def State.pastFirstWord (s : State) : State :=
  { s.advancePc with cycles := s.cycles + 1, fetchAddr := s.pc }

/-- `Retire()` (46_sequencer.md R172, R181): the sequencer's working set becomes clean; `skip` stays. -/
def State.retire (s : State) : State :=
  { s with inst := 0, aRef := none, bRef := none, stage := .s0, burnLeft := 0 }

end Sys2Proof.Machine
end

