-- ==== Sys2Proof/Machine/Operands.lean ====
section
/-! DEFINITION. The operand resolver, `Resolve`, `Read` and `Write` (40_operands.md), and the frame in which the whole
of an instruction runs: resolve `a`, resolve `b`, execute (46_sequencer.md R187, R188). -/

namespace Sys2Proof.Machine

/-- What `Resolve(code)` answers (40_operands.md R92): the reference, whether it consumed a cycle, and the state with
the resolution's effects on PC and SP. -/
structure Resolved where
  ref : OpRef
  costed : Bool
  state : State
deriving DecidableEq, Repr

/-- `Resolve(code)`, the same in either role (40_operands.md R92 to R104, R110). -/
def resolve (operand : Operand) (s : State) : Resolved :=
  match operand with
  | .reg r => { ref := .reg r, costed := false, state := s }
  | .regInd r => { ref := .mem (s.getReg r), costed := false, state := s }
  | .indexed r => { ref := .mem (s.wordAtPc + s.getReg r), costed := true, state := s.advancePc }
  | .pop => { ref := .mem s.sp, costed := false, state := s.setSp (s.sp + 1) }
  | .peek => { ref := .mem s.sp, costed := false, state := s }
  | .push => { ref := .mem (s.sp - 1), costed := false, state := s.setSp (s.sp - 1) }
  | .sp => { ref := .sp, costed := false, state := s }
  | .pc => { ref := .pc, costed := false, state := s }
  | .o => { ref := .o, costed := false, state := s }
  | .absolute => { ref := .mem s.wordAtPc, costed := true, state := s.advancePc }
  | .nextLit => { ref := .imm s.wordAtPc, costed := true, state := s.advancePc }
  | .smallLit v => { ref := .imm (v.setWidth 16), costed := false, state := s }

/-- `Read(ref)`, at the moment it is called (40_operands.md R106). -/
def State.readRef (s : State) (ref : OpRef) : Word :=
  match ref with
  | .reg r => s.getReg r
  | .sp => s.sp
  | .pc => s.pc
  | .o => s.o
  | .mem addr => s.readMem addr
  | .imm v => v

/-- `Write(ref, v)`; a write to an immediate is discarded (40_operands.md R107). -/
def State.writeRef (s : State) (ref : OpRef) (v : Word) : State :=
  match ref with
  | .reg r => s.setReg r v
  | .sp => s.setSp v
  | .pc => s.setPc v
  | .o => s.setO v
  | .mem addr => s.writeMem addr v
  | .imm _ => s

/-- What `Execute()` answers (46_sequencer.md R177): the state after the opcode's effect and the execute cycles `n` it
owes (R184). -/
structure Executed where
  state : State
  cycles : Nat
deriving DecidableEq, Repr

/-- A whole basic instruction after its fetch: `a` is resolved, then `b`, then the execute stage runs on the two
references, and the cycles of all three are counted (46_sequencer.md R185, R187, R188). -/
def runBasic (stage : OpRef → OpRef → State → Executed) (a b : Operand) (s : State) :
    Host.Outcome State Fault Refusal :=
  let ra := resolve a s
  let rb := resolve b ra.state
  let done := stage ra.ref rb.ref rb.state
  .next (done.state.addCycles (ra.costed.toNat + rb.costed.toNat + done.cycles))

/-- A whole extended instruction after its fetch: its one operand is resolved and the execute stage runs
(46_sequencer.md R175, R188). -/
def runExtended (stage : OpRef → State → Executed) (a : Operand) (s : State) :
    Host.Outcome State Fault Refusal :=
  let ra := resolve a s
  let done := stage ra.ref ra.state
  .next (done.state.addCycles (ra.costed.toNat + done.cycles))

end Sys2Proof.Machine
end

