-- ==== Sys2Proof/Machine/Flags.lean ====
section
/-! DEFINITION. The values the ALU computes: results, and what ADD, SUB, MUL, DIV, SHL and SHR put into O
(10_state.md R14). Operands are unsigned; each formula is computed on natural numbers and narrowed once at the end
(41_set_logic.md R120, 42_arithmetic.md R137, 43_shifts.md R142). -/

namespace Sys2Proof.Machine

/-- The low 16 bits of a number: `R mod 2^16`. -/
def narrow (r : Nat) : Word := BitVec.ofNat 16 r

/-- ADD: `(A+B) mod 2^16` (42_arithmetic.md R130). -/
def addResult (a b : Word) : Word := narrow (a.toNat + b.toNat)

/-- ADD's O: 1 on carry-out, else 0 (42_arithmetic.md R130). -/
def addOverflow (a b : Word) : Word := if a.toNat + b.toNat > 0xFFFF then 0x0001 else 0x0000

/-- SUB: `(A-B) mod 2^16`, that is `A - B + 0x10000` narrowed (42_arithmetic.md R131). -/
def subResult (a b : Word) : Word := narrow (a.toNat + 0x10000 - b.toNat)

/-- SUB's O: 0xFFFF on borrow, else 0 (42_arithmetic.md R131). -/
def subOverflow (a b : Word) : Word := if a.toNat < b.toNat then 0xFFFF else 0x0000

/-- MUL: the low half of the unsigned product (42_arithmetic.md R132). -/
def mulResult (a b : Word) : Word := narrow (a.toNat * b.toNat)

/-- MUL's O: bits 31:16 of the unsigned product (42_arithmetic.md R132). -/
def mulOverflow (a b : Word) : Word := narrow ((a.toNat * b.toNat) >>> 16)

/-- DIV: the floor quotient, 0 for divisor 0 (42_arithmetic.md R133). -/
def divResult (a b : Word) : Word := if b = 0 then 0 else narrow (a.toNat / b.toNat)

/-- DIV's O: the low 16 bits of `(A << 16) / B`, 0 for divisor 0 (42_arithmetic.md R133). -/
def divOverflow (a b : Word) : Word := if b = 0 then 0 else narrow ((a.toNat <<< 16) / b.toNat)

/-- MOD: the remainder, 0 for divisor 0 (42_arithmetic.md R134). -/
def modResult (a b : Word) : Word := if b = 0 then 0 else narrow (a.toNat % b.toNat)

/-- SHL: `(A << B) mod 2^16`; the count is not masked (43_shifts.md R140). -/
def shlResult (a b : Word) : Word := narrow (a.toNat <<< b.toNat)

/-- SHL's O: bits 31:16 of `A << B` (43_shifts.md R140; counts of 32 and more: R142, log 9). -/
def shlOverflow (a b : Word) : Word := narrow ((a.toNat <<< b.toNat) >>> 16)

/-- SHR: `A >> B`, zero filling (43_shifts.md R141). -/
def shrResult (a b : Word) : Word := narrow (a.toNat >>> b.toNat)

/-- SHR's O: the low 16 bits of `(A << 16) >> B` (43_shifts.md R141; counts of 32 and more: R142, log 9). -/
def shrOverflow (a b : Word) : Word := narrow ((a.toNat <<< 16) >>> b.toNat)

/-- IFE's test (44_conditionals.md R151). -/
def ifeTest (a b : Word) : Bool := a == b

/-- IFN's test (44_conditionals.md R152). -/
def ifnTest (a b : Word) : Bool := a != b

/-- IFG's test, unsigned (44_conditionals.md R153). -/
def ifgTest (a b : Word) : Bool := a.toNat > b.toNat

/-- IFB's test: a common 1 bit (44_conditionals.md R154). -/
def ifbTest (a b : Word) : Bool := (a &&& b) != 0

end Sys2Proof.Machine
end

