-- ==== Sys2Proof/Machine/Arithmetic.lean ====
section
/-! DEFINITION. ADD, SUB, MUL, DIV, MOD (42_arithmetic.md). Both results of an instruction are computed from the values
read at the start of its execute stage (41_set_logic.md R120). -/

namespace Sys2Proof.Machine

/-- The execute stage that writes a result through `a` and then O, in that order (42_arithmetic.md R130 to R133, R135;
log 8), owing `n` execute cycles. A literal `a` drops the result only (41_set_logic.md R125; log 11). -/
def writeThenO (result overflow : Word → Word → Word) (n : Nat) (ra rb : OpRef) (s : State) : Executed :=
  let a := s.readRef ra
  let b := s.readRef rb
  { state := (s.writeRef ra (result a b)).setO (overflow a b), cycles := n }

/-- ADD's execute stage (42_arithmetic.md R130). -/
def addStage (ra rb : OpRef) (s : State) : Executed := writeThenO addResult addOverflow 1 ra rb s

/-- SUB's execute stage (42_arithmetic.md R131). -/
def subStage (ra rb : OpRef) (s : State) : Executed := writeThenO subResult subOverflow 1 ra rb s

/-- MUL's execute stage (42_arithmetic.md R132). -/
def mulStage (ra rb : OpRef) (s : State) : Executed := writeThenO mulResult mulOverflow 1 ra rb s

/-- DIV's execute stage; division by zero gives 0 and O = 0 (42_arithmetic.md R133, 60_exceptions.md R221). -/
def divStage (ra rb : OpRef) (s : State) : Executed := writeThenO divResult divOverflow 2 ra rb s

/-- MOD's execute stage; O is not written (42_arithmetic.md R134). -/
def modStage (ra rb : OpRef) (s : State) : Executed :=
  { state := s.writeRef ra (modResult (s.readRef ra) (s.readRef rb)), cycles := 2 }

/-- ADD a, b (42_arithmetic.md R130). -/
def execAdd (a b : Operand) (s : State) : Host.Outcome State Fault Refusal := runBasic addStage a b s

/-- SUB a, b (42_arithmetic.md R131). -/
def execSub (a b : Operand) (s : State) : Host.Outcome State Fault Refusal := runBasic subStage a b s

/-- MUL a, b (42_arithmetic.md R132). -/
def execMul (a b : Operand) (s : State) : Host.Outcome State Fault Refusal := runBasic mulStage a b s

/-- DIV a, b (42_arithmetic.md R133). -/
def execDiv (a b : Operand) (s : State) : Host.Outcome State Fault Refusal := runBasic divStage a b s

/-- MOD a, b (42_arithmetic.md R134). -/
def execMod (a b : Operand) (s : State) : Host.Outcome State Fault Refusal := runBasic modStage a b s

end Sys2Proof.Machine
end

