-- ==== Sys2Proof/Machine/Conditionals.lean ====
section
/-! DEFINITION. IFE, IFN, IFG, IFB (44_conditionals.md): a failing test sets `skip`; nothing else is written. -/

namespace Sys2Proof.Machine

/-- The execute stage of a conditional: one execute cycle when the test passes; when it fails, `skip` is set and a
second cycle is owed (44_conditionals.md R150, 46_sequencer.md R184). -/
def testStage (test : Word → Word → Bool) (ra rb : OpRef) (s : State) : Executed :=
  if test (s.readRef ra) (s.readRef rb) then { state := s, cycles := 1 }
  else { state := s.setSkip, cycles := 2 }

/-- IFE's execute stage (44_conditionals.md R151). -/
def ifeStage (ra rb : OpRef) (s : State) : Executed := testStage ifeTest ra rb s

/-- IFN's execute stage (44_conditionals.md R152). -/
def ifnStage (ra rb : OpRef) (s : State) : Executed := testStage ifnTest ra rb s

/-- IFG's execute stage (44_conditionals.md R153). -/
def ifgStage (ra rb : OpRef) (s : State) : Executed := testStage ifgTest ra rb s

/-- IFB's execute stage (44_conditionals.md R154). -/
def ifbStage (ra rb : OpRef) (s : State) : Executed := testStage ifbTest ra rb s

/-- IFE a, b (44_conditionals.md R151). -/
def execIfe (a b : Operand) (s : State) : Host.Outcome State Fault Refusal := runBasic ifeStage a b s

/-- IFN a, b (44_conditionals.md R152). -/
def execIfn (a b : Operand) (s : State) : Host.Outcome State Fault Refusal := runBasic ifnStage a b s

/-- IFG a, b (44_conditionals.md R153). -/
def execIfg (a b : Operand) (s : State) : Host.Outcome State Fault Refusal := runBasic ifgStage a b s

/-- IFB a, b (44_conditionals.md R154). -/
def execIfb (a b : Operand) (s : State) : Host.Outcome State Fault Refusal := runBasic ifbStage a b s

end Sys2Proof.Machine
end

