-- ==== Sys2Proof/Machine/Extended.lean ====
section
/-! DEFINITION. JSR and the reserved extended words (45_jsr_control.md). -/

namespace Sys2Proof.Machine

/-- JSR's execute stage: the target is read first, then SP is lowered, PC is pushed, and PC becomes the target
(45_jsr_control.md R160, R161; log 7). Nothing is written through the operand; O is unchanged. -/
def jsrStage (ra : OpRef) (s : State) : Executed :=
  let target := s.readRef ra
  let pushed := (s.setSp (s.sp - 1)).writeMem (s.sp - 1) s.pc
  { state := pushed.setPc target, cycles := 1 }

/-- JSR a (45_jsr_control.md R160). -/
def execJsr (a : Operand) (s : State) : Host.Outcome State Fault Refusal := runExtended jsrStage a s

/-- A reserved extended word: a no-op after its fetch. The operand is not resolved and no cycle is owed
(45_jsr_control.md R162, 60_exceptions.md R222; log 10). -/
def execReserved (_xop : BitVec 6) (_a : Operand) (s : State) : Host.Outcome State Fault Refusal := .next s

end Sys2Proof.Machine
end

