-- ==== Sys2Proof/Machine/SetLogic.lean ====
section
/-! DEFINITION. SET, AND, BOR, XOR (41_set_logic.md): a free execute stage, O unchanged. For each instruction, its
execute stage on resolved operands, which the cycle-level sequencer runs too, and its meaning as a whole. -/

namespace Sys2Proof.Machine

/-- The execute stage of SET, AND, BOR and XOR: both operands are read, one result is written through `a`, no execute
cycle is owed (41_set_logic.md R120, 46_sequencer.md R184). -/
def writeStage (result : Word → Word → Word) (ra rb : OpRef) (s : State) : Executed :=
  { state := s.writeRef ra (result (s.readRef ra) (s.readRef rb)), cycles := 0 }

/-- SET's execute stage, `A <- B` (41_set_logic.md R121). -/
def setStage (ra rb : OpRef) (s : State) : Executed := writeStage (fun _ b => b) ra rb s

/-- AND's execute stage (41_set_logic.md R122). -/
def andStage (ra rb : OpRef) (s : State) : Executed := writeStage (fun a b => a &&& b) ra rb s

/-- BOR's execute stage (41_set_logic.md R123). -/
def borStage (ra rb : OpRef) (s : State) : Executed := writeStage (fun a b => a ||| b) ra rb s

/-- XOR's execute stage (41_set_logic.md R124). -/
def xorStage (ra rb : OpRef) (s : State) : Executed := writeStage (fun a b => a ^^^ b) ra rb s

/-- SET a, b (41_set_logic.md R121). -/
def execSet (a b : Operand) (s : State) : Host.Outcome State Fault Refusal := runBasic setStage a b s

/-- AND a, b (41_set_logic.md R122). -/
def execAnd (a b : Operand) (s : State) : Host.Outcome State Fault Refusal := runBasic andStage a b s

/-- BOR a, b (41_set_logic.md R123). -/
def execBor (a b : Operand) (s : State) : Host.Outcome State Fault Refusal := runBasic borStage a b s

/-- XOR a, b (41_set_logic.md R124). -/
def execXor (a b : Operand) (s : State) : Host.Outcome State Fault Refusal := runBasic xorStage a b s

end Sys2Proof.Machine
end

