-- ==== Sys2Proof/Machine/Shifts.lean ====
section
/-! DEFINITION. SHL and SHR (43_shifts.md), logical shifts by the whole 16-bit count. -/

namespace Sys2Proof.Machine

/-- SHL's execute stage: the result through `a`, then O (43_shifts.md R140). -/
def shlStage (ra rb : OpRef) (s : State) : Executed := writeThenO shlResult shlOverflow 1 ra rb s

/-- SHR's execute stage: O first, then the result through `a`, so that with `a` = O the result stands
(43_shifts.md R141, 42_arithmetic.md R135; log 8). -/
def shrStage (ra rb : OpRef) (s : State) : Executed :=
  let a := s.readRef ra
  let b := s.readRef rb
  { state := (s.setO (shrOverflow a b)).writeRef ra (shrResult a b), cycles := 1 }

/-- SHL a, b (43_shifts.md R140). -/
def execShl (a b : Operand) (s : State) : Host.Outcome State Fault Refusal := runBasic shlStage a b s

/-- SHR a, b (43_shifts.md R141). -/
def execShr (a b : Operand) (s : State) : Host.Outcome State Fault Refusal := runBasic shrStage a b s

end Sys2Proof.Machine
end

