-- ==== Sys2Proof/Machine/Sequencer.lean ====
section
/-! DEFINITION. The cycle scheduler (46_sequencer.md): `stepCycle`, one clock cycle, stage by stage, with its retire
report; `flush`, which runs the pending free stages (R189); and `stepInstruction1`, the whole-instruction step (R188).
All run the same resolver and the same execute stages as `exec`. -/

namespace Sys2Proof.Machine

/-! ### What the stages do with an instruction -/

/-- How the stages treat an instruction: two operands and an execute stage, one operand and an execute stage, or a
discard in S1 (46_sequencer.md R175 to R177, R182). -/
inductive Plan where
  | basic (a b : Operand) (stage : OpRef → OpRef → State → Executed)
  | extended (a : Operand) (stage : OpRef → State → Executed)
  | discard

/-- The plan of each instruction (46_sequencer.md R171, R184). -/
def planOf : Instr → Plan
  | .set a b => .basic a b setStage
  | .add a b => .basic a b addStage
  | .sub a b => .basic a b subStage
  | .mul a b => .basic a b mulStage
  | .div a b => .basic a b divStage
  | .mod a b => .basic a b modStage
  | .shl a b => .basic a b shlStage
  | .shr a b => .basic a b shrStage
  | .and a b => .basic a b andStage
  | .bor a b => .basic a b borStage
  | .xor a b => .basic a b xorStage
  | .ife a b => .basic a b ifeStage
  | .ifn a b => .basic a b ifnStage
  | .ifg a b => .basic a b ifgStage
  | .ifb a b => .basic a b ifbStage
  | .jsr a => .extended a jsrStage
  | .reserved _ _ => .discard

/-- `Execute()` on the operand references the state holds (46_sequencer.md R177). A reference that the plan needs and
the state lacks is the model's one fault (log 4). -/
def executeStage (s : State) : Except Fault Executed :=
  match planOf (decodeWord s.inst) with
  | .basic _ _ stage =>
    match s.aRef, s.bRef with
    | some ra, some rb => .ok (stage ra rb s)
    | _, _ => .error .operandAbsent
  | .extended _ stage =>
    match s.aRef with
    | some ra => .ok (stage ra s)
    | none => .error .operandAbsent
  | .discard => .ok { state := s, cycles := 0 }

/-! ### One stage -/

/-- What a cycle reports of the last instruction that retired in it: the address of its first word and PC at the moment
it retired (46_sequencer.md R181, 47_host_facade.md R204). -/
structure Retirement where
  addr : Word
  pc : Word
deriving DecidableEq, Repr

/-- What one stage did: the state after it, whether it consumed the cycle, and the instruction it retired, if any
(46_sequencer.md R171, R181). -/
structure StageRun where
  state : State
  costed : Bool
  retired : Option Retirement
deriving DecidableEq, Repr

/-- The report of the instruction in flight if it retires in this state (47_host_facade.md R204). -/
def State.retirement (s : State) : Retirement := { addr := s.fetchAddr, pc := s.pc }

/-- The skip variant of S0: PC moves past the instruction there, by `Len` of its first word, and `skip` is cleared
(46_sequencer.md R174, 44_conditionals.md R155). -/
def State.skipNext (s : State) : State :=
  { s.setPc (s.pc + BitVec.ofNat 16 (lenOfWord s.wordAtPc)) with skip := false }

/-- The fetch of S0 as one cycle does it: the first word goes into `inst`. A zero word leaves the machine in S0
(46_sequencer.md R172, R173, R183). -/
def State.fetchFirstWord (s : State) : State :=
  let w := s.wordAtPc
  { s.advancePc with inst := w, fetchAddr := s.pc, stage := if w = 0 then .s0 else .s1 }

/-- Stage S0 (46_sequencer.md R173, R174, R183). The zero word retires in its fetch. -/
def runS0 (s : State) : StageRun :=
  if s.skip then { state := s.skipNext, costed := true, retired := none }
  else
    let t := s.fetchFirstWord
    { state := t, costed := true, retired := if t.inst = 0 then some t.retirement else none }

/-- Stage S1 (46_sequencer.md R175, R182). -/
def runS1 (s : State) : StageRun :=
  match planOf (decodeWord s.inst) with
  | .basic a _ _ =>
    let r := resolve a s
    { state := { r.state with aRef := some r.ref, stage := .s2 }, costed := r.costed, retired := none }
  | .extended a _ =>
    let r := resolve a s
    { state := { r.state with aRef := some r.ref, stage := .s3 }, costed := r.costed, retired := none }
  | .discard => { state := s.retire, costed := false, retired := some s.retirement }

/-- Stage S2: the operand in `inst[15:10]` (46_sequencer.md R176). -/
def runS2 (s : State) : StageRun :=
  let r := resolve (Operand.ofCode (highField s.inst)) s
  { state := { r.state with bRef := some r.ref, stage := .s3 }, costed := r.costed, retired := none }

/-- Stage S3: the effect is applied; with `n` execute cycles owed the stage is free (0), the only execute cycle (1), or
followed by `n - 1` burn cycles (46_sequencer.md R177, R184). -/
def runS3 (s : State) : Except Fault StageRun :=
  match executeStage s with
  | .error e => .error e
  | .ok done =>
    let t := done.state
    match done.cycles with
    | 0 => .ok { state := t.retire, costed := false, retired := some t.retirement }
    | 1 => .ok { state := t.retire, costed := true, retired := some t.retirement }
    | n + 2 => .ok { state := { t with stage := .burn, burnLeft := n + 1 }, costed := true, retired := none }

/-- Stage BURN (46_sequencer.md R178). -/
def runBurn (s : State) : StageRun :=
  let left := s.burnLeft - 1
  if left = 0 then { state := s.retire, costed := true, retired := some s.retirement }
  else { state := { s with burnLeft := left }, costed := true, retired := none }

/-- The pending stage (46_sequencer.md R171). -/
def runStage (s : State) : Except Fault StageRun :=
  match s.stage with
  | .s0 => .ok (runS0 s)
  | .s1 => .ok (runS1 s)
  | .s2 => .ok (runS2 s)
  | .s3 => runS3 s
  | .burn => .ok (runBurn s)

/-! ### One clock cycle -/

/-- The retire report of a cycle: how many instructions retired in it, and the last of them
(47_host_facade.md R204). -/
structure Report where
  retired : Nat
  last : Option Retirement
deriving DecidableEq, Repr

/-- The report of a cycle in which nothing has retired yet. -/
def Report.none : Report := { retired := 0, last := .none }

/-- The report after one more stage. -/
def Report.add (rep : Report) : Option Retirement → Report
  | .none => rep
  | some r => { retired := rep.retired + 1, last := some r }

/-- What a clock cycle yields: the new state and the retire report, "an output of the cycle, not state"
(46_sequencer.md R181). -/
structure CycleResult where
  state : State
  report : Report
deriving DecidableEq, Repr

/-- The loop of `StepCycle`: runs stages until a costed one has run (46_sequencer.md R172). The number bounds the
stages run; from any state four are enough, since a free stage moves to a later one of S1, S2, S3, S0. -/
def cycleLoop : Nat → Report → State → Except Fault CycleResult
  | 0, rep, s => .ok { state := s, report := rep }
  | n + 1, rep, s =>
    match runStage s with
    | .error e => .error e
    | .ok r =>
      if r.costed then .ok { state := r.state, report := rep.add r.retired }
      else cycleLoop n (rep.add r.retired) r.state

/-- `StepCycle` (46_sequencer.md R172, R179): one clock cycle. -/
def stepCycle (s : State) : Except Fault CycleResult := cycleLoop 4 Report.none (s.addCycles 1)

/-- `step_cycles(n)` (47_host_facade.md R201): `n` clock cycles. -/
def stepCycles : Nat → State → Except Fault State
  | 0, s => .ok s
  | n + 1, s =>
    match stepCycle s with
    | .error e => .error e
    | .ok r => stepCycles n r.state

/-- The loop of `Flush`: runs the pending stage while it is free. -/
def flushLoop : Nat → State → Except Fault State
  | 0, s => .ok s
  | n + 1, s =>
    match runStage s with
    | .error e => .error e
    | .ok r => if r.costed then .ok s else flushLoop n r.state

/-- `Flush` (46_sequencer.md R189): runs the pending free stages without running any costed stage. At most three
stages, S1, S2 and S3, can be free. -/
def flush (s : State) : Except Fault State := flushLoop 3 s

/-- One clock cycle of the alternative machine in which free stages attach backward (46_sequencer.md R189,
92_eei_decisions.md D2): the pending costed stage, then the free stages that follow it. -/
def stepCycleBackward (s : State) : Except Fault State :=
  match runStage (s.addCycles 1) with
  | .error e => .error e
  | .ok r => flush r.state

/-- `n` clock cycles of the alternative machine. -/
def stepCyclesBackward : Nat → State → Except Fault State
  | 0, s => .ok s
  | n + 1, s =>
    match stepCycleBackward s with
    | .error e => .error e
    | .ok t => stepCyclesBackward n t

/-! ### A whole instruction -/

/-- The rest of an instruction from its execute stage on, with its execute and burn cycles counted
(46_sequencer.md R177, R178, R188). -/
def finishFromExecute (s : State) : Host.Outcome State Fault Refusal :=
  match executeStage s with
  | .error e => .fault e
  | .ok done => .next (done.state.retire.addCycles done.cycles)

/-- The rest of an instruction from the resolution of `b` on (46_sequencer.md R176, R188). -/
def finishFromResolveB (s : State) : Host.Outcome State Fault Refusal :=
  let r := resolve (Operand.ofCode (highField s.inst)) s
  finishFromExecute { r.state.addCycles r.costed.toNat with bRef := some r.ref }

/-- `StepInstruction1` (46_sequencer.md R188): from a clean state, the skip of one instruction when `skip` is set, else
the whole of the next instruction; its cycles are added to the cycle counter. From a state in mid-instruction it
finishes the current instruction only, as `step_instruction` does (47_host_facade.md R202; log 17). -/
def stepInstruction1 (s : State) : Host.Outcome State Fault Refusal :=
  match s.stage with
  | .s0 => if s.skip then .next (s.skipNext.addCycles 1) else exec (decodeWord s.wordAtPc) s.pastFirstWord
  | .s1 => exec (decodeWord s.inst) s.retire
  | .s2 => finishFromResolveB s
  | .s3 => finishFromExecute s
  | .burn => .next (s.retire.addCycles (max 1 s.burnLeft))

/-! ### A program word for the next fetch -/

/-- The state about to fetch the instruction whose words are given: nothing is in flight, no skip is pending, and the
words stand at PC and the addresses after it (20_memory.md R53; log 5). -/
def State.placeAtPc (s : State) (w0 w1 w2 : Word) : State :=
  let t := { s.retire with skip := false }
  ((t.writeMem t.pc w0).writeMem (t.pc + 1) w1).writeMem (t.pc + 2) w2

/-- The first three words of an image of `nbits` bits in the opcode table's numbering, placed for the next fetch. -/
def State.placeTableWord (s : State) (nbits w : Nat) : State :=
  let image := w % 2 ^ nbits
  s.placeAtPc (BitVec.ofNat 16 image) (BitVec.ofNat 16 (image >>> 16)) (BitVec.ofNat 16 (image >>> 32))

end Sys2Proof.Machine
end

