-- ==== Sys2Proof/Machine/Step.lean ====
section
/-! DEFINITION. The machine's step: one whole instruction, `StepInstruction1` of 46_sequencer.md R188 (log 2). The
clock cycle it is made of is `stepCycle` of Machine/Sequencer.lean. -/

namespace Sys2Proof.Machine

/-- One step: the skip of one instruction, or the whole of the next one, or the rest of the one in flight
(46_sequencer.md R188; logs 2 and 17). -/
def step (s : State) : Host.Outcome State Fault Refusal := stepInstruction1 s

/-- The state about to fetch and run the instruction whose table bits are `w` (log 5). -/
def State.withFetchWord (s : State) (nbits w : Nat) : State := s.placeTableWord nbits w

end Sys2Proof.Machine
end

