-- ==== Sys2Proof/Machine/Facade.lean ====
section
/-! DEFINITION. The host's interface (47_host_facade.md, 20_memory.md section 5, 70_reset_and_hazards.md section 1):
what the host does between cycles, and the stepping façade. It adds no state to the block (R208). -/

namespace Sys2Proof.Machine

/-! ### Between cycles -/

/-- `init / reset` (70_reset_and_hazards.md R240, R241): the state after it does not depend on the state before it. -/
def hostReset (_s : State) : State := State.reset

/-- `load(address, words[])` (20_memory.md R53): word `i` goes to `(address + i) mod 2^16`, in increasing `i`; memory
only, between any two cycles (47_host_facade.md R207; log 22). -/
def State.load (s : State) (address : Word) : List Word → State
  | [] => s
  | w :: ws => (s.writeMem address w).load (address + 1) ws

/-- `get_register(reg)` (47_host_facade.md R205). -/
def State.getRegister (s : State) (r : Reg) : Word := s.getReg r

/-- `get_pc()` (47_host_facade.md R205). -/
def State.getPc (s : State) : Word := s.pc

/-- `get_sp()` (47_host_facade.md R205). -/
def State.getSp (s : State) : Word := s.sp

/-- `get_o()` (47_host_facade.md R205). -/
def State.getO (s : State) : Word := s.o

/-- `get_memory(addr)` (47_host_facade.md R205, 20_memory.md R55). -/
def State.getMemory (s : State) (addr : Word) : Word := s.readMem addr

/-- `get_register_name(reg)` (47_host_facade.md R206). -/
def registerName : Reg → String
  | .a => "A"
  | .b => "B"
  | .c => "C"
  | .x => "X"
  | .y => "Y"
  | .z => "Z"
  | .i => "I"
  | .j => "J"

/-- The block's control inputs at one clock edge (47_host_facade.md R200, the spec's own port list; log 15). -/
structure Ports where
  reset : Bool
  stepEn : Bool
  loadEn : Bool
  loadAddr : Word
  loadData : Word
deriving DecidableEq, Repr

/-- One clock edge: reset has priority over a step, a load takes effect only while no step is enabled, and an edge with
nothing enabled changes nothing (47_host_facade.md R200, 60_exceptions.md R226; log 15). DESIGN CHOICE (log 23), where the
spec is silent: reset asserted with `loadEn` and no `stepEn` wins and the load is dropped; an edge that runs no cycle shows
the empty report on the retired outputs instead of holding the last one. -/
def clockEdge (p : Ports) (s : State) : Except Fault CycleResult :=
  if p.reset then .ok { state := hostReset s, report := Report.none }
  else if p.stepEn then stepCycle s
  else if p.loadEn then .ok { state := s.load p.loadAddr [p.loadData], report := Report.none }
  else .ok { state := s, report := Report.none }

/-! ### The stepping façade -/

/-- Cycles run until one reported a retirement: the state, the last retirement it reported, and how many cycles. -/
structure ToRetirement where
  state : State
  last : Retirement
  elapsed : Nat
deriving DecidableEq, Repr

/-- `repeat: r <- StepCycle(); c <- c + 1 until r.retired >= 1` (47_host_facade.md R202, R203), for at most `fuel`
cycles; `none` when none of them retired an instruction. -/
def runToRetirement : Nat → Nat → State → Except Fault (Option ToRetirement)
  | 0, _, _ => .ok none
  | fuel + 1, elapsed, s =>
    match stepCycle s with
    | .error e => .error e
    | .ok r =>
      match r.report.last with
      | some last => .ok (some { state := r.state, last := last, elapsed := elapsed + 1 })
      | none => runToRetirement fuel (elapsed + 1) r.state

/-- `while skip: StepCycle(); c <- c + 1`, "at most one cycle" (47_host_facade.md R202). -/
def consumeSkip (t : ToRetirement) : Except Fault ToRetirement :=
  if t.state.skip then
    match stepCycle t.state with
    | .error e => .error e
    | .ok r => .ok { t with state := r.state, elapsed := t.elapsed + 1 }
  else .ok t

/-- The cycles within which an instruction retires from every state the sequencer reaches: a skip and the dearest
instruction (70_reset_and_hazards.md R253). -/
def retireBound : Nat := 6

/-- One turn of the façade's loops: cycles until an instruction has retired, then the skip it caused. -/
def instructionTurn (s : State) : Except Fault (Option ToRetirement) :=
  match runToRetirement retireBound 0 s with
  | .error e => .error e
  | .ok none => .ok none
  | .ok (some t) =>
    match consumeSkip t with
    | .error e => .error e
    | .ok u => .ok (some u)

/-- What a façade call answers: the state it leaves and the cycles that elapsed. -/
structure FacadeResult where
  state : State
  elapsed : Nat
deriving DecidableEq, Repr

/-- `step_instruction()` (47_host_facade.md R202); `none` if no instruction retires within `retireBound` cycles, which
no state that the sequencer reaches gives (log 14). -/
def stepInstruction (s : State) : Except Fault (Option FacadeResult) :=
  match instructionTurn s with
  | .error e => .error e
  | .ok none => .ok none
  | .ok (some t) => .ok (some { state := t.state, elapsed := t.elapsed })

/-- The loop of `step_until_stuck`, for at most `fuel` instructions. -/
def stuckLoop : Nat → Nat → State → Except Fault (Option FacadeResult)
  | 0, _, _ => .ok none
  | fuel + 1, total, s =>
    match instructionTurn s with
    | .error e => .error e
    | .ok none => .ok none
    | .ok (some t) =>
      if t.last.pc = t.last.addr then .ok (some { state := t.state, elapsed := total + t.elapsed })
      else stuckLoop fuel (total + t.elapsed) t.state

/-- `step_until_stuck()` (47_host_facade.md R203): runs instructions until one retires with PC at its own address, and
answers the total of cycles; `none` means "not stuck within `fuel` instructions", never a count
(93_implementation_defined.md I11; log 14). -/
def stepUntilStuck (fuel : Nat) (s : State) : Except Fault (Option FacadeResult) := stuckLoop fuel 0 s

end Sys2Proof.Machine
end

