-- ==== Sys2Proof/Safety.lean ====
section
/-! DEFINITION. The terms the statements use: the states a run can be in, the values an instruction works on, and what
it leaves alone. A run is safe when no step faults; 60_exceptions.md R220 says every run is. -/

namespace Sys2Proof

/-! ### Of operands and instructions -/

/-- What resolving an operand adds to SP: 1 for POP, -1 for PUSH (40_operands.md R96, R98). -/
def Operand.spChange : Operand → Word
  | .pop => 1
  | .push => -1
  | .reg _ | .regInd _ | .indexed _ | .peek | .sp | .pc | .o | .absolute | .nextLit | .smallLit _ => 0

/-- What resolving an operand adds to PC: 1 for the forms with a next word (40_operands.md R91, R92). -/
def Operand.pcChange (c : Operand) : Word := BitVec.ofNat 16 c.hasNextWord.toNat

/-- What resolving an operand costs in cycles (40_operands.md R109). -/
def Operand.resolveCycles (c : Operand) : Nat := c.hasNextWord.toNat

/-- The conditional instructions (44_conditionals.md). -/
def Instr.isConditional : Instr → Bool
  | .ife _ _ | .ifn _ _ | .ifg _ _ | .ifb _ _ => true
  | .set _ _ | .add _ _ | .sub _ _ | .mul _ _ | .div _ _ | .mod _ _ | .shl _ _ | .shr _ _
  | .and _ _ | .bor _ _ | .xor _ _ | .jsr _ | .reserved _ _ => false

/-- The instructions that write O on every execution (10_state.md R14). -/
def Instr.writesOverflow : Instr → Bool
  | .add _ _ | .sub _ _ | .mul _ _ | .div _ _ | .shl _ _ | .shr _ _ => true
  | .set _ _ | .mod _ _ | .and _ _ | .bor _ _ | .xor _ _ | .ife _ _ | .ifn _ _ | .ifg _ _ | .ifb _ _
  | .jsr _ | .reserved _ _ => false

/-- The operand an instruction writes its result through, if it is one that writes a result (10_state.md R15). -/
def Instr.destination : Instr → Option Operand
  | .set a _ | .add a _ | .sub a _ | .mul a _ | .div a _ | .mod a _ | .shl a _ | .shr a _
  | .and a _ | .bor a _ | .xor a _ => some a
  | .ife _ _ | .ifn _ _ | .ifg _ _ | .ifb _ _ | .jsr _ | .reserved _ _ => none

/-- The operand a basic instruction only reads (41_set_logic.md R120). -/
def Instr.source : Instr → Option Operand
  | .set _ b | .add _ b | .sub _ b | .mul _ b | .div _ b | .mod _ b | .shl _ b | .shr _ b
  | .and _ b | .bor _ b | .xor _ b | .ife _ b | .ifn _ b | .ifg _ b | .ifb _ b => some b
  | .jsr _ | .reserved _ _ => none

end Sys2Proof

namespace Sys2Proof.Machine

/-! ### Legal states -/

/-- A clean state (10_state.md R25): nothing in flight. `skip` may be pending. -/
abbrev State.Clean (s : State) : Prop :=
  s.inst = 0 ∧ s.aRef = none ∧ s.bRef = none ∧ s.stage = .s0 ∧ s.burnLeft = 0

/-- The sequencer's working set holds together at a cycle boundary (10_state.md R19, R20, R25; 46_sequencer.md R172):
`inst` is 0 exactly in S0, each stage holds exactly the references resolved before it, one burn cycle is owed in BURN
and none elsewhere, and `skip` is pending only in S0 and BURN. -/
def State.sequencerOk (s : State) : Bool :=
  match s.stage with
  | .s0 => s.inst == 0 && s.aRef.isNone && s.bRef.isNone && s.burnLeft == 0
  | .s1 => s.inst != 0 && s.aRef.isNone && s.bRef.isNone && s.burnLeft == 0 && !s.skip
  | .s2 => opField s.inst != 0 && s.aRef.isSome && s.bRef.isNone && s.burnLeft == 0 && !s.skip
  | .s3 =>
    s.aRef.isSome && s.burnLeft == 0 && !s.skip &&
      (if opField s.inst = 0 then midField s.inst == jsrXop && s.bRef.isNone else s.bRef.isSome)
  | .burn => opField s.inst != 0 && s.aRef.isSome && s.bRef.isSome && s.burnLeft == 1

/-- The model's invariant: the sequencer's working set holds together and memory has its canonical form. -/
abbrev State.Inv (s : State) : Prop := s.sequencerOk = true ∧ s.mem.wf = true

/-! ### The operands of a basic instruction -/

/-- The reference operand `a` resolves to, the destination (40_operands.md R105). -/
def destRef (a : Operand) (s : State) : OpRef := (resolve a s).ref

/-- The state once both operands are resolved, in which the execute stage starts (41_set_logic.md R120). -/
def resolvedState (a b : Operand) (s : State) : State := (resolve b (resolve a s).state).state

/-- `A`, the value read through `a_ref` at the start of the execute stage (41_set_logic.md R120). -/
def valueA (a b : Operand) (s : State) : Word := (resolvedState a b s).readRef (destRef a s)

/-- `B`, the value read through `b_ref` at the start of the execute stage (41_set_logic.md R120). -/
def valueB (a b : Operand) (s : State) : Word :=
  (resolvedState a b s).readRef (resolve b (resolve a s).state).ref

/-! ### What an instruction leaves alone -/

/-- The sequencer's working set is as before, but for `skip`. -/
structure SameSequencer (s t : State) : Prop where
  inst : t.inst = s.inst
  aRef : t.aRef = s.aRef
  bRef : t.bRef = s.bRef
  stage : t.stage = s.stage
  burnLeft : t.burnLeft = s.burnLeft
  fetchAddr : t.fetchAddr = s.fetchAddr

/-- Instruction `a, b` wrote `v` through its destination: the destination reads as `v` (a literal takes no write; the O
register as destination is left to the statement, because an instruction may write O twice), every other general
register and every other memory word is unchanged, PC and SP moved as the two operands move them unless they are the
destination, and the sequencer's working set is unchanged. -/
structure WroteThrough (a b : Operand) (v : Word) (s t : State) : Prop where
  destination : (∀ lit, destRef a s ≠ .imm lit) → destRef a s ≠ .o → t.readRef (destRef a s) = v
  registers : ∀ r, destRef a s ≠ .reg r → t.getReg r = s.getReg r
  memory : ∀ addr, destRef a s ≠ .mem addr → t.readMem addr = s.readMem addr
  pc : destRef a s ≠ .pc → t.pc = s.pc + a.pcChange + b.pcChange
  sp : destRef a s ≠ .sp → t.sp = s.sp + a.spChange + b.spChange
  skip : t.skip = s.skip
  sequencer : SameSequencer s t

/-- The whole effect of a basic instruction that writes `v` and nothing else: O changes only as the destination, and the
cycles of the operands' next words and of `n` execute cycles are counted (41_set_logic.md R121 to R124). -/
structure WroteOnly (a b : Operand) (v : Word) (n : Nat) (s t : State) : Prop where
  through : WroteThrough a b v s t
  overflow : t.o = if destRef a s = .o then v else s.o
  cycles : t.cycles = s.cycles + (a.resolveCycles + b.resolveCycles + n)

/-- The whole effect of a basic instruction that writes `v` through its destination and leaves `ovf` in O, whatever the
destination (10_state.md R14). -/
structure WroteAndOverflow (a b : Operand) (v ovf : Word) (n : Nat) (s t : State) : Prop where
  through : WroteThrough a b v s t
  overflow : t.o = ovf
  cycles : t.cycles = s.cycles + (a.resolveCycles + b.resolveCycles + n)

/-- The state after a basic instruction that writes nothing through `a`: PC and SP moved as the operands move them, the
cycles of `n` execute cycles and of the operands' next words counted, `skip` as given, all else unchanged. -/
def afterReading (a b : Operand) (skip : Bool) (n : Nat) (s : State) : State :=
  { s with
    pc := s.pc + a.pcChange + b.pcChange
    sp := s.sp + a.spChange + b.spChange
    skip := skip
    cycles := s.cycles + (a.resolveCycles + b.resolveCycles + n) }

/-! ### Results over the cycle level -/

/-- `n` cycles and then `Flush` (46_sequencer.md R189). -/
def cyclesThenFlush (n : Nat) (s : State) : Except Fault State :=
  match stepCycles n s with
  | .error e => .error e
  | .ok t => flush t

/-- The execute cycles an instruction owes when its test, if it has one, `passed` (46_sequencer.md R184). -/
def executeCycles (passed : Bool) : Instr → Nat
  | .set _ _ | .and _ _ | .bor _ _ | .xor _ _ => 0
  | .add _ _ | .sub _ _ | .mul _ _ | .shl _ _ | .shr _ _ => 1
  | .div _ _ | .mod _ _ => 2
  | .ife _ _ | .ifn _ _ | .ifg _ _ | .ifb _ _ => if passed then 1 else 2
  | .jsr _ => 1
  | .reserved _ _ => 0

end Sys2Proof.Machine
end

