-- ==== Sys2Proof/Certificates/Slice0/Obligations.lean ====
section
/-! DEFINITION. The statements for the provers. Rules are those of spec/; log n is notes/assumptions/n.md. -/

open Sys2Proof Sys2Proof.Machine

/-! ### Encoding -/

/-- Reading back the words of any well-formed instruction with its operand words gives the instruction, those operand
words and the words that followed (30_encoding.md R60 to R63, R68). -/
def Obligations.DecodeOfEncode : Prop :=
  ∀ (i : Instr) (operandWords rest : List Word), i.wellFormedWith operandWords = true →
    decode (encode i operandWords ++ rest) = .ok { instr := i, operandWords := operandWords, rest := rest }

/-- Every one of the 65,536 first words is some well-formed instruction's own encoding (30_encoding.md R63, R73). -/
def Obligations.EveryFirstWordIsItsInstructionsEncoding : Prop :=
  ∀ w : Word, (decodeWord w).wellFormed = true ∧ encodeWord (decodeWord w) = w

/-- The five words that 30_encoding.md takes apart by hand. -/
def Obligations.WorkedWordsDecodeAsTheSpecSays : Prop :=
  decodeWord 0x85C3 = .sub .pc (.smallLit 1) ∧
  decodeWord 0x7C01 = .set (.reg .a) .nextLit ∧
  decodeWord 0xC411 = .set (.reg .b) (.smallLit 0x11) ∧
  decodeWord 0x0402 = .add (.reg .a) (.reg .b) ∧
  decodeWord 0x0403 = .sub (.reg .a) (.reg .b)

/-- `Len` of a first word is one more than the operand words the instruction consumes; of a reserved word it counts the
operand code that executing the word does not resolve (30_encoding.md R66; log 10). -/
def Obligations.LengthCountsOperandWords : Prop :=
  ∀ w : Word, lenOfWord w ≤ 3 ∧
    lenOfWord w =
      if opField w = 0 ∧ midField w ≠ jsrXop then 1 + (Operand.ofCode (highField w)).hasNextWord.toNat
      else 1 + (decodeWord w).operandWords

/-! ### Operands -/

/-- The table of 40_operands.md section 4: what each of the 64 operand codes refers to, whether it costs a cycle, and how
it moves PC and SP, changing nothing else (R92). The wrap of the indexed sum is the spec's own decision D18 (log 19). -/
def Obligations.OperandCodeTable : Prop :=
  ∀ (code : BitVec 6) (s : State),
    let c := code.toNat
    let w := s.readMem s.pc
    (resolve (Operand.ofCode code) s).ref =
      (if c ≤ 0x07 then .reg (Reg.ofIndex c)
      else if c ≤ 0x0F then .mem (s.getReg (Reg.ofIndex (c - 0x08)))
      else if c ≤ 0x17 then .mem (BitVec.ofNat 16 (w.toNat + (s.getReg (Reg.ofIndex (c - 0x10))).toNat))
      else if c = 0x18 then .mem s.sp
      else if c = 0x19 then .mem s.sp
      else if c = 0x1A then .mem (s.sp - 1)
      else if c = 0x1B then .sp
      else if c = 0x1C then .pc
      else if c = 0x1D then .o
      else if c = 0x1E then .mem w
      else if c = 0x1F then .imm w
      else .imm (BitVec.ofNat 16 (c - 0x20))) ∧
    (resolve (Operand.ofCode code) s).costed = takesWord code ∧
    (resolve (Operand.ofCode code) s).state = { s with
      pc := if takesWord code then s.pc + 1 else s.pc
      sp := if c = 0x18 then s.sp + 1 else if c = 0x1A then s.sp - 1 else s.sp }

/-- PC and SP as operands are read at the execute stage: PC past all operand words, SP after the POP or PUSH of either
operand (40_operands.md R108). -/
def Obligations.PcAndSpOperandsAreReadAtExecute : Prop :=
  ∀ (a b : Operand) (s : State),
    valueA .pc b s = s.pc + b.pcChange ∧ valueB a .pc s = s.pc + a.pcChange ∧
    valueA .sp b s = s.sp + b.spChange ∧ valueB a .sp s = s.sp + a.spChange

/-! ### Instructions -/

/-- SET (41_set_logic.md R121): encoding, the write of `B`, O unchanged unless it is the destination, no execute cycle,
frame. -/
def Obligations.SetResult : Prop :=
  ∀ (a b : Operand) (s : State), decodeWord (basicWord 0x1 a b) = .set a b ∧
    ∃ t, exec (.set a b) s = .next t ∧ WroteOnly a b (valueB a b s) 0 s t

/-- AND, BOR, XOR (41_set_logic.md R122 to R124): encoding, result, O unchanged unless it is the destination, no execute
cycle, frame. -/
def Obligations.BitwiseResults : Prop :=
  ∀ (a b : Operand) (s : State),
    (decodeWord (basicWord 0x9 a b) = .and a b ∧
      ∃ t, exec (.and a b) s = .next t ∧ WroteOnly a b (valueA a b s &&& valueB a b s) 0 s t) ∧
    (decodeWord (basicWord 0xA a b) = .bor a b ∧
      ∃ t, exec (.bor a b) s = .next t ∧ WroteOnly a b (valueA a b s ||| valueB a b s) 0 s t) ∧
    (decodeWord (basicWord 0xB a b) = .xor a b ∧
      ∃ t, exec (.xor a b) s = .next t ∧ WroteOnly a b (valueA a b s ^^^ valueB a b s) 0 s t)

/-- ADD (42_arithmetic.md R130): encoding, the wrapped sum, O = carry, one execute cycle, frame. That O ends as the carry when `a`
is O (log 8) and is written when `a` is a literal (log 11) are the spec's own decisions D5 and D20. -/
def Obligations.AddResult : Prop :=
  ∀ (a b : Operand) (s : State), decodeWord (basicWord 0x2 a b) = .add a b ∧
    ∃ t, exec (.add a b) s = .next t ∧
    WroteAndOverflow a b (valueA a b s + valueB a b s)
      (if (valueA a b s).toNat + (valueB a b s).toNat > 0xFFFF then 0x0001 else 0x0000) 1 s t

/-- SUB (42_arithmetic.md R131): encoding, the wrapped difference, O = 0xFFFF on borrow, one execute cycle, frame. Decisions D5 and
D20 as for ADD (logs 8, 11). -/
def Obligations.SubResult : Prop :=
  ∀ (a b : Operand) (s : State), decodeWord (basicWord 0x3 a b) = .sub a b ∧
    ∃ t, exec (.sub a b) s = .next t ∧
    WroteAndOverflow a b (valueA a b s - valueB a b s)
      (if valueA a b s < valueB a b s then 0xFFFF else 0x0000) 1 s t

/-- MUL (42_arithmetic.md R132, R137): encoding, the two halves of the 32-bit unsigned product, one execute cycle, frame.
Decisions D5 and D20 as for ADD (logs 8, 11). -/
def Obligations.MulResult : Prop :=
  ∀ (a b : Operand) (s : State), decodeWord (basicWord 0x4 a b) = .mul a b ∧
    ∃ t, exec (.mul a b) s = .next t ∧
    WroteAndOverflow a b (valueA a b s * valueB a b s)
      (((valueA a b s).setWidth 32 * (valueB a b s).setWidth 32).extractLsb' 16 16) 1 s t

/-- DIV (42_arithmetic.md R133, R137): encoding, floor quotient and first 16 fraction bits, both 0 for divisor 0, two execute
cycles, frame. Decisions D5 and D20 as for ADD (logs 8, 11). -/
def Obligations.DivResult : Prop :=
  ∀ (a b : Operand) (s : State), decodeWord (basicWord 0x5 a b) = .div a b ∧
    ∃ t, exec (.div a b) s = .next t ∧
    WroteAndOverflow a b (if valueB a b s = 0 then 0 else valueA a b s / valueB a b s)
      (if valueB a b s = 0 then 0
        else (((valueA a b s).setWidth 32 <<< 16) / (valueB a b s).setWidth 32).setWidth 16) 2 s t

/-- MOD (42_arithmetic.md R134): encoding, remainder, 0 for divisor 0, O unchanged unless it is the destination, two
execute cycles, frame. -/
def Obligations.ModResult : Prop :=
  ∀ (a b : Operand) (s : State), decodeWord (basicWord 0x6 a b) = .mod a b ∧
    ∃ t, exec (.mod a b) s = .next t ∧
      WroteOnly a b (if valueB a b s = 0 then 0 else valueA a b s % valueB a b s) 2 s t

/-- SHL (43_shifts.md R140, the table of R142): encoding, the result, one execute cycle, frame. Counts of 32 and more are the spec's decision
D6 (log 9); decisions D5 and D20 as for ADD (logs 8, 11). -/
def Obligations.ShlResult : Prop :=
  ∀ (a b : Operand) (s : State), decodeWord (basicWord 0x7 a b) = .shl a b ∧
    ∃ t, exec (.shl a b) s = .next t ∧
    let v := valueA a b s
    let n := (valueB a b s).toNat
    WroteAndOverflow a b (if n ≤ 15 then v <<< n else 0)
      (if n = 0 then 0 else if n ≤ 15 then v >>> (16 - n) else if n ≤ 31 then v <<< (n - 16) else 0) 1 s t

/-- SHR (43_shifts.md R141, the table of R142): encoding, the result, one execute cycle, frame; with `a` = O the shifted value stands, the
spec's decision D5 (log 8). Counts of 32 and more: D6 (log 9); literal `a`: D20 (log 11). -/
def Obligations.ShrResult : Prop :=
  ∀ (a b : Operand) (s : State), decodeWord (basicWord 0x8 a b) = .shr a b ∧
    ∃ t, exec (.shr a b) s = .next t ∧
    let v := valueA a b s
    let n := (valueB a b s).toNat
    let result := if n ≤ 15 then v >>> n else 0
    WroteAndOverflow a b result
      (if destRef a s = .o then result
        else if n = 0 then 0 else if n ≤ 15 then v <<< (16 - n) else if n ≤ 31 then v >>> (n - 16) else 0) 1 s t

/-- Division and remainder by zero (60_exceptions.md R221): 0 through `a`, O = 0 for DIV and unchanged for MOD, at the
cost of any other divisor. That DIV writes O when `a` is a literal is the spec's own decision D20 (log 11). -/
def Obligations.DivisionByZeroGivesZero : Prop :=
  ∀ (a b : Operand) (s : State), valueB a b s = 0 →
    (∃ t, exec (.div a b) s = .next t ∧ WroteAndOverflow a b 0 0 2 s t) ∧
    (∃ t, exec (.mod a b) s = .next t ∧ WroteOnly a b 0 2 s t)

/-- IFE, IFN, IFG, IFB (44_conditionals.md R150 to R154): the encodings; a failing test sets `skip` and costs one more cycle; both
operands take effect either way; nothing else is written. -/
def Obligations.ConditionalsSetSkipWhenTheTestFails : Prop :=
  ∀ (a b : Operand) (s : State),
    let x := valueA a b s
    let y := valueB a b s
    decodeWord (basicWord 0xC a b) = .ife a b ∧
    exec (.ife a b) s = .next (if x = y then afterReading a b s.skip 1 s else afterReading a b true 2 s) ∧
    decodeWord (basicWord 0xD a b) = .ifn a b ∧
    exec (.ifn a b) s = .next (if x ≠ y then afterReading a b s.skip 1 s else afterReading a b true 2 s) ∧
    decodeWord (basicWord 0xE a b) = .ifg a b ∧
    exec (.ifg a b) s = .next (if x > y then afterReading a b s.skip 1 s else afterReading a b true 2 s) ∧
    decodeWord (basicWord 0xF a b) = .ifb a b ∧
    exec (.ifb a b) s =
      .next (if ∃ k : Fin 16, x.getLsbD k = true ∧ y.getLsbD k = true then afterReading a b s.skip 1 s
        else afterReading a b true 2 s)

/-- JSR (45_jsr_control.md R160): the address after its operand words is pushed at the new stack top, PC becomes the
operand's value, all else is unchanged. That the operand is read before the push is the spec's decision D4 (log 7). -/
def Obligations.JsrPushesReturnAddressAndJumps : Prop :=
  ∀ (a : Operand) (s : State), decodeWord (extendedWord 0x01 a) = .jsr a ∧
    ∃ t, exec (.jsr a) s = .next t ∧
      t.pc = (resolve a s).state.readRef (resolve a s).ref ∧
      t.sp = s.sp + a.spChange - 1 ∧
      t.readMem (s.sp + a.spChange - 1) = s.pc + a.pcChange ∧
      (∀ addr, addr ≠ s.sp + a.spChange - 1 → t.readMem addr = s.readMem addr) ∧
      (∀ r, t.getReg r = s.getReg r) ∧ t.o = s.o ∧ t.skip = s.skip ∧ SameSequencer s t ∧
      t.cycles = s.cycles + (a.resolveCycles + 1)

/-- A reserved extended word (45_jsr_control.md R162) changes nothing after its fetch; as a step from a clean state it
moves PC by one and costs one cycle, and nothing else of the machine changes (`fetchAddr` is the model's own, log 3). -/
def Obligations.ReservedWordIsOneWordNoOp : Prop :=
  (∀ (xop : BitVec 6) (a : Operand) (s : State), exec (.reserved xop a) s = .next s) ∧
  ∀ s : State, s.Clean → s.skip = false →
    opField (s.readMem s.pc) = 0 → midField (s.readMem s.pc) ≠ 0x01 →
    step s = .next { s with pc := s.pc + 1, cycles := s.cycles + 1, fetchAddr := s.pc }

/-- A literal as destination (41_set_logic.md R125): no general register and no memory word changes, PC and SP move as
the operands move them, and O keeps its value under the instructions that do not write it. -/
def Obligations.LiteralDestinationIsDiscarded : Prop :=
  ∀ (i : Instr) (a b : Operand) (s : State), i.destination = some a → i.source = some b →
    (∃ v, destRef a s = .imm v) →
    ∃ t, exec i s = .next t ∧ (∀ r, t.getReg r = s.getReg r) ∧ (∀ addr, t.readMem addr = s.readMem addr) ∧
      t.pc = s.pc + a.pcChange + b.pcChange ∧ t.sp = s.sp + a.spChange + b.spChange ∧ t.skip = s.skip ∧
      (i.writesOverflow = false → t.o = s.o)

/-! ### What holds of every instruction -/

/-- O is left alone by every instruction but ADD, SUB, MUL, DIV, SHL, SHR, unless it is the destination operand
(10_state.md R14). -/
def Obligations.OnlyArithmeticAndShiftsWriteO : Prop :=
  ∀ (i : Instr) (s t : State), exec i s = .next t → i.writesOverflow = false → i.destination ≠ some .o → t.o = s.o

/-- Only a conditional whose test fails sets `skip`, and no instruction clears it (10_state.md R20). -/
def Obligations.OnlyConditionalsTouchSkip : Prop :=
  ∀ (i : Instr) (s t : State), exec i s = .next t →
    (i.isConditional = false → t.skip = s.skip) ∧ (s.skip = true → t.skip = true)

/-- A memory word changes only as the destination of a writing instruction or as the word JSR pushes
(20_memory.md R46). -/
def Obligations.StoresLandOnlyAtDestinationOrStackTop : Prop :=
  ∀ (i : Instr) (s t : State) (addr : Word), exec i s = .next t →
    (∀ a, i.destination = some a → destRef a s ≠ .mem addr) →
    (∀ a, i = .jsr a → addr ≠ s.sp + a.spChange - 1) →
    t.readMem addr = s.readMem addr

/-- A general register changes only as the destination of a writing instruction (10_state.md R15). -/
def Obligations.RegistersChangeOnlyAsDestination : Prop :=
  ∀ (i : Instr) (s t : State) (r : Reg), exec i s = .next t → i.destination ≠ some (.reg r) →
    t.getReg r = s.getReg r

/-! ### Idioms -/

/-- `SUB PC, 1` (45_jsr_control.md R165): a step of the halt word leads back to its own address in two cycles, with O = 0
(0xFFFF at address 0xFFFF), and changes nothing else of the machine (`fetchAddr` is the model's own, log 3). -/
def Obligations.HaltWordStepsToItself : Prop :=
  ∀ s : State, s.Clean → s.skip = false → s.readMem s.pc = 0x85C3 →
    step s = .next { s with
      o := if s.pc = 0xFFFF then 0xFFFF else 0, cycles := s.cycles + 2, fetchAddr := s.pc }

/-- `SET PUSH, x` and then `SET d, POP` (40_operands.md R112): SP is restored and the destination reads as the pushed
value, for a destination and a source that do not move SP themselves, a destination that is a location other than SP. The
second instruction runs from any state `m` with the registers, SP, O and memory that the first one left: its PC is wherever
its own first word was fetched, so its operand word is its own. -/
def Obligations.PushThenPopRestoresSp : Prop :=
  ∀ (x d : Operand) (s t m u : State),
    x.spChange = 0 → d.spChange = 0 → d ≠ .sp → (∀ v, destRef d m ≠ .imm v) →
    exec (.set .push x) s = .next t →
    m.regs = t.regs → m.sp = t.sp → m.o = t.o → m.mem = t.mem →
    exec (.set d .pop) m = .next u →
    u.sp = s.sp ∧ u.readRef (destRef d m) = valueB .push x s

/-- `ADD a, b` and then `SUB a, b` on two different registers restores the first (42_arithmetic.md R131). -/
def Obligations.AddThenSubRestores : Prop :=
  ∀ (ra rb : Reg) (s t u : State), ra ≠ rb →
    exec (.add (.reg ra) (.reg rb)) s = .next t → exec (.sub (.reg ra) (.reg rb)) t = .next u →
    u.getReg ra = s.getReg ra

/-! ### Steps and cycles -/

/-- When the words at PC decode to an instruction, a step from a clean state with no skip pending runs it, after PC has
moved past the first word and the fetch cycle has been counted (46_sequencer.md R188; logs 2, 3). -/
def Obligations.StepRunsTheDecodedInstruction : Prop :=
  ∀ (s : State) (d : Decoded), s.Clean → s.skip = false →
    decode [s.readMem s.pc, s.readMem (s.pc + 1), s.readMem (s.pc + 2)] = .ok d → d.instr.wellFormed = true →
    step s = exec d.instr { s with pc := s.pc + 1, cycles := s.cycles + 1, fetchAddr := s.pc }

/-- An instruction placed for the fetch is the one the next step runs (log 5). It is placed at PC without moving PC, with
zero words after it, as the table's image has them, and every other word of memory as it was; the step runs it on that
memory, with no skip pending. -/
def Obligations.PlacedWordIsTheNextInstruction : Prop :=
  ∀ (s : State) (w : Nat),
    let placed := s.withFetchWord 16 w
    decodeTableWord 16 w = some (decodeWord (BitVec.ofNat 16 w)) ∧
    placed.pc = s.pc ∧ placed.readMem s.pc = BitVec.ofNat 16 w ∧
    placed.readMem (s.pc + 1) = 0 ∧ placed.readMem (s.pc + 2) = 0 ∧
    (∀ addr, addr ≠ s.pc → addr ≠ s.pc + 1 → addr ≠ s.pc + 2 → placed.readMem addr = s.readMem addr) ∧
    ∃ t, step placed = exec (decodeWord (BitVec.ofNat 16 w)) t ∧
      t.pc = s.pc + 1 ∧ t.mem = placed.mem ∧ t.skip = false ∧ (∀ r, t.getReg r = s.getReg r) ∧ t.sp = s.sp ∧ t.o = s.o

/-- The cost of a whole instruction (46_sequencer.md R184, R185): one cycle for the fetch, one for each operand's next
word, and the opcode's execute cycles; from 1 to 5 (70_reset_and_hazards.md R253). -/
def Obligations.InstructionCost : Prop :=
  ∀ s : State, s.Clean → s.skip = false →
    ∃ t, step s = .next t ∧
      t.cycles = s.cycles + (1 + (decodeWord (s.readMem s.pc)).operandWords +
        executeCycles (!t.skip) (decodeWord (s.readMem s.pc))) ∧
      s.cycles + 1 ≤ t.cycles ∧ t.cycles ≤ s.cycles + 5

/-- The skip variant of S0 (46_sequencer.md R174): with `skip` set, the next cycle, and the next step, only moves PC past
the instruction there and clears `skip`, in one cycle that retires nothing. -/
def Obligations.SkipPassesOneInstruction : Prop :=
  ∀ s : State, s.Clean → s.skip = true →
    let t := { s with
      pc := s.pc + BitVec.ofNat 16 (lenOfWord (s.readMem s.pc)), skip := false, cycles := s.cycles + 1 }
    step s = .next t ∧ stepCycle s = .ok { state := t, report := Report.none }

/-- The fetch cycle (46_sequencer.md R173, R183): from a clean state the cycle reads the word at PC into `inst`, moves PC
by one and does nothing else (`fetchAddr` is the model's own, log 3); a zero word leaves the machine clean and retires. -/
def Obligations.FetchCycleStandsAlone : Prop :=
  ∀ s : State, s.Clean → s.skip = false →
    let w := s.readMem s.pc
    stepCycle s = .ok {
      state := { s with
        inst := w, pc := s.pc + 1, stage := if w = 0 then .s0 else .s1, cycles := s.cycles + 1, fetchAddr := s.pc }
      report := if w = 0 then { retired := 1, last := some { addr := s.pc, pc := s.pc + 1 } } else Report.none }

/-- A burn cycle (46_sequencer.md R178) changes no architectural state and not `skip`; it takes one from `burn_left` and,
on reaching 0, retires the instruction. That the report names `fetchAddr` (R181, R204) rests on log 3; the clause for more
than one burn cycle owed, which 10_state.md R19 rules out in every run, is the model's reading of R172 (log 16). -/
def Obligations.BurnCycleIsIdle : Prop :=
  ∀ s : State, s.stage = .burn →
    ∃ r, stepCycle s = .ok r ∧
      r.state.regs = s.regs ∧ r.state.pc = s.pc ∧ r.state.sp = s.sp ∧ r.state.o = s.o ∧ r.state.mem = s.mem ∧
      r.state.skip = s.skip ∧ r.state.burnLeft = s.burnLeft - 1 ∧
      (s.burnLeft = 1 → r.state.Clean ∧ r.report = { retired := 1, last := some { addr := s.fetchAddr, pc := s.pc } }) ∧
      (1 < s.burnLeft → r.state.stage = .burn ∧ r.report = Report.none)

/-- `StepCycle` cannot fail and counts itself (46_sequencer.md R172, 10_state.md R21). -/
def Obligations.CycleCannotFail : Prop :=
  ∀ s : State, s.Inv → ∃ r, stepCycle s = .ok r ∧ r.state.cycles = s.cycles + 1

/-- The retire report of a cycle (46_sequencer.md R181, 47_host_facade.md R204): at most two retirements, two only when
the last is a zero word fetched, which leaves a clean state; a last one exactly when there is one. -/
def Obligations.RetireReportOfACycle : Prop :=
  ∀ (s : State) (r : CycleResult), s.Inv → stepCycle s = .ok r →
    (r.report.retired = 0 ↔ r.report.last = none) ∧ r.report.retired ≤ 2 ∧
    (r.report.retired = 2 → r.state.Clean ∧
      r.report.last = some { addr := r.state.pc - 1, pc := r.state.pc } ∧ r.state.readMem (r.state.pc - 1) = 0)

/-- `step_cycles(n)` (47_host_facade.md R201) answers from every legal state and for every `n`, counts `n` cycles, and
keeps the invariant. -/
def Obligations.StepCyclesCountsAndKeepsTheInvariant : Prop :=
  ∀ (n : Nat) (s : State), s.Inv → ∃ t, stepCycles n s = .ok t ∧ t.Inv ∧ t.cycles = s.cycles + n

/-! ### The invariant -/

/-- The reset state meets the invariant (10_state.md R25, R30). -/
def Obligations.ResetMeetsTheInvariant : Prop :=
  State.reset.Inv

/-- Every clock cycle keeps the invariant (10_state.md R25, 46_sequencer.md R186). -/
def Obligations.CycleKeepsTheInvariant : Prop :=
  ∀ (s : State) (r : CycleResult), s.Inv → stepCycle s = .ok r → r.state.Inv

/-- Every step keeps the invariant and leaves a clean state (10_state.md R25, 46_sequencer.md R181). What a step does from
a state in mid-instruction, which R188 does not say, is the model's choice (log 17). -/
def Obligations.StepKeepsTheInvariant : Prop :=
  ∀ s t : State, s.Inv → step s = .next t → t.Inv ∧ t.Clean

/-- No step faults or is refused (60_exceptions.md R220). -/
def Obligations.StepNeverStops : Prop :=
  ∀ s : State, s.Inv → ∃ t, step s = .next t

/-- The host's operations between cycles keep the invariant (20_memory.md R53, 70_reset_and_hazards.md R240). -/
def Obligations.HostOperationsKeepTheInvariant : Prop :=
  ∀ (s : State) (address : Word) (words : List Word), (hostReset s).Inv ∧ (s.Inv → (s.load address words).Inv)

/-! ### The two levels -/

/-- A step is some number of clock cycles and then `Flush`, and its cycle count is that number (46_sequencer.md R189):
from every legal state, in mid-instruction too (log 17); from S0 at least one cycle, never more than five. -/
def Obligations.StepIsCyclesThenFlush : Prop :=
  ∀ s : State, s.Inv → ∃ (n : Nat) (t : State), step s = .next t ∧ cyclesThenFlush n s = .ok t ∧
    t.cycles = s.cycles + n ∧ n ≤ 5 ∧ (s.stage = .s0 → 1 ≤ n)

/-- The machine in which free stages attach backward is, after `k` cycles from a clean state, `Flush` of this machine
after `k` cycles (46_sequencer.md R189; the spec's decision D2, log 6). -/
def Obligations.BackwardPackingIsFlushedForwardPacking : Prop :=
  ∀ (s : State) (k : Nat), s.Inv → s.Clean → stepCyclesBackward k s = cyclesThenFlush k s

/-! ### The host -/

/-- Reset (10_state.md R30, 70_reset_and_hazards.md R240, R241), whatever the state before it. The cycle counter's 0 is
the spec's decision D9 (log 12). -/
def Obligations.ResetValues : Prop :=
  ∀ (s : State) (r : Reg) (addr : Word),
    (hostReset s).getReg r = 0 ∧ (hostReset s).pc = 0 ∧ (hostReset s).sp = 0xFFFF ∧ (hostReset s).o = 0 ∧
    (hostReset s).readMem addr = 0 ∧ (hostReset s).Clean ∧ (hostReset s).skip = false ∧ (hostReset s).cycles = 0

/-- `load` (20_memory.md R53): word `i` of a block no longer than memory stands at `address + i` modulo 2^16, every other
word of memory and all other state is unchanged. That a load may come at any time is the spec's decision D14 (log 22). -/
def Obligations.LoadPlacesTheBlock : Prop :=
  ∀ (s : State) (address : Word) (words : List Word), words.length ≤ 65536 →
    (∀ (k : Nat) (h : k < words.length), (s.load address words).readMem (address + BitVec.ofNat 16 k) = words[k]) ∧
    (∀ addr, (∀ k < words.length, addr ≠ address + BitVec.ofNat 16 k) →
      (s.load address words).readMem addr = s.readMem addr) ∧
    { s.load address words with mem := s.mem } = s

/-- `step_instruction` (47_host_facade.md R202) answers from every legal state: an instruction completes and its skip is
consumed within seven cycles, and the count answered is the cycles elapsed. -/
def Obligations.StepInstructionAnswers : Prop :=
  ∀ s : State, s.Inv → ∃ res, stepInstruction s = .ok (some res) ∧ res.state.Inv ∧ res.state.skip = false ∧
    res.state.cycles = s.cycles + res.elapsed ∧ 1 ≤ res.elapsed ∧ res.elapsed ≤ 7

/-- `step_until_stuck` (47_host_facade.md R203) answers after the first turn of the halt word, with its two cycles
(45_jsr_control.md R165; the fuel is the model's, log 14, and so is `fetchAddr`, log 3). -/
def Obligations.HaltWordIsStuck : Prop :=
  ∀ (fuel : Nat) (s : State), s.Clean → s.skip = false → s.readMem s.pc = 0x85C3 →
    stepUntilStuck (fuel + 1) s = .ok (some {
      state := { s with o := if s.pc = 0xFFFF then 0xFFFF else 0, cycles := s.cycles + 2, fetchAddr := s.pc }
      elapsed := 2 })
end

