-- ==== Sys2Proof/Laws/State.lean ====
section
/-! SUPPORT. One lemma per field and update, true by rfl, and the basic laws of registers and of memory. -/

namespace Sys2Proof.Machine

/-! ### Field of update -/

@[simp] theorem setReg_pc (s : State) (r : Reg) (v : Word) : (s.setReg r v).pc = s.pc := rfl
@[simp] theorem setReg_sp (s : State) (r : Reg) (v : Word) : (s.setReg r v).sp = s.sp := rfl
@[simp] theorem setReg_o (s : State) (r : Reg) (v : Word) : (s.setReg r v).o = s.o := rfl
@[simp] theorem setReg_mem (s : State) (r : Reg) (v : Word) : (s.setReg r v).mem = s.mem := rfl
@[simp] theorem setReg_inst (s : State) (r : Reg) (v : Word) : (s.setReg r v).inst = s.inst := rfl
@[simp] theorem setReg_aRef (s : State) (r : Reg) (v : Word) : (s.setReg r v).aRef = s.aRef := rfl
@[simp] theorem setReg_bRef (s : State) (r : Reg) (v : Word) : (s.setReg r v).bRef = s.bRef := rfl
@[simp] theorem setReg_stage (s : State) (r : Reg) (v : Word) : (s.setReg r v).stage = s.stage := rfl
@[simp] theorem setReg_burnLeft (s : State) (r : Reg) (v : Word) : (s.setReg r v).burnLeft = s.burnLeft := rfl
@[simp] theorem setReg_skip (s : State) (r : Reg) (v : Word) : (s.setReg r v).skip = s.skip := rfl
@[simp] theorem setReg_cycles (s : State) (r : Reg) (v : Word) : (s.setReg r v).cycles = s.cycles := rfl
@[simp] theorem setReg_fetchAddr (s : State) (r : Reg) (v : Word) : (s.setReg r v).fetchAddr = s.fetchAddr := rfl

@[simp] theorem writeMem_regs (s : State) (a v : Word) : (s.writeMem a v).regs = s.regs := rfl
@[simp] theorem writeMem_pc (s : State) (a v : Word) : (s.writeMem a v).pc = s.pc := rfl
@[simp] theorem writeMem_sp (s : State) (a v : Word) : (s.writeMem a v).sp = s.sp := rfl
@[simp] theorem writeMem_o (s : State) (a v : Word) : (s.writeMem a v).o = s.o := rfl
@[simp] theorem writeMem_inst (s : State) (a v : Word) : (s.writeMem a v).inst = s.inst := rfl
@[simp] theorem writeMem_aRef (s : State) (a v : Word) : (s.writeMem a v).aRef = s.aRef := rfl
@[simp] theorem writeMem_bRef (s : State) (a v : Word) : (s.writeMem a v).bRef = s.bRef := rfl
@[simp] theorem writeMem_stage (s : State) (a v : Word) : (s.writeMem a v).stage = s.stage := rfl
@[simp] theorem writeMem_burnLeft (s : State) (a v : Word) : (s.writeMem a v).burnLeft = s.burnLeft := rfl
@[simp] theorem writeMem_skip (s : State) (a v : Word) : (s.writeMem a v).skip = s.skip := rfl
@[simp] theorem writeMem_cycles (s : State) (a v : Word) : (s.writeMem a v).cycles = s.cycles := rfl
@[simp] theorem writeMem_fetchAddr (s : State) (a v : Word) : (s.writeMem a v).fetchAddr = s.fetchAddr := rfl

@[simp] theorem setPc_regs (s : State) (v : Word) : (s.setPc v).regs = s.regs := rfl
@[simp] theorem setPc_pc (s : State) (v : Word) : (s.setPc v).pc = v := rfl
@[simp] theorem setPc_sp (s : State) (v : Word) : (s.setPc v).sp = s.sp := rfl
@[simp] theorem setPc_o (s : State) (v : Word) : (s.setPc v).o = s.o := rfl
@[simp] theorem setPc_mem (s : State) (v : Word) : (s.setPc v).mem = s.mem := rfl
@[simp] theorem setPc_inst (s : State) (v : Word) : (s.setPc v).inst = s.inst := rfl
@[simp] theorem setPc_aRef (s : State) (v : Word) : (s.setPc v).aRef = s.aRef := rfl
@[simp] theorem setPc_bRef (s : State) (v : Word) : (s.setPc v).bRef = s.bRef := rfl
@[simp] theorem setPc_stage (s : State) (v : Word) : (s.setPc v).stage = s.stage := rfl
@[simp] theorem setPc_burnLeft (s : State) (v : Word) : (s.setPc v).burnLeft = s.burnLeft := rfl
@[simp] theorem setPc_skip (s : State) (v : Word) : (s.setPc v).skip = s.skip := rfl
@[simp] theorem setPc_cycles (s : State) (v : Word) : (s.setPc v).cycles = s.cycles := rfl
@[simp] theorem setPc_fetchAddr (s : State) (v : Word) : (s.setPc v).fetchAddr = s.fetchAddr := rfl

@[simp] theorem setSp_regs (s : State) (v : Word) : (s.setSp v).regs = s.regs := rfl
@[simp] theorem setSp_pc (s : State) (v : Word) : (s.setSp v).pc = s.pc := rfl
@[simp] theorem setSp_sp (s : State) (v : Word) : (s.setSp v).sp = v := rfl
@[simp] theorem setSp_o (s : State) (v : Word) : (s.setSp v).o = s.o := rfl
@[simp] theorem setSp_mem (s : State) (v : Word) : (s.setSp v).mem = s.mem := rfl
@[simp] theorem setSp_inst (s : State) (v : Word) : (s.setSp v).inst = s.inst := rfl
@[simp] theorem setSp_aRef (s : State) (v : Word) : (s.setSp v).aRef = s.aRef := rfl
@[simp] theorem setSp_bRef (s : State) (v : Word) : (s.setSp v).bRef = s.bRef := rfl
@[simp] theorem setSp_stage (s : State) (v : Word) : (s.setSp v).stage = s.stage := rfl
@[simp] theorem setSp_burnLeft (s : State) (v : Word) : (s.setSp v).burnLeft = s.burnLeft := rfl
@[simp] theorem setSp_skip (s : State) (v : Word) : (s.setSp v).skip = s.skip := rfl
@[simp] theorem setSp_cycles (s : State) (v : Word) : (s.setSp v).cycles = s.cycles := rfl
@[simp] theorem setSp_fetchAddr (s : State) (v : Word) : (s.setSp v).fetchAddr = s.fetchAddr := rfl

@[simp] theorem setO_regs (s : State) (v : Word) : (s.setO v).regs = s.regs := rfl
@[simp] theorem setO_pc (s : State) (v : Word) : (s.setO v).pc = s.pc := rfl
@[simp] theorem setO_sp (s : State) (v : Word) : (s.setO v).sp = s.sp := rfl
@[simp] theorem setO_o (s : State) (v : Word) : (s.setO v).o = v := rfl
@[simp] theorem setO_mem (s : State) (v : Word) : (s.setO v).mem = s.mem := rfl
@[simp] theorem setO_inst (s : State) (v : Word) : (s.setO v).inst = s.inst := rfl
@[simp] theorem setO_aRef (s : State) (v : Word) : (s.setO v).aRef = s.aRef := rfl
@[simp] theorem setO_bRef (s : State) (v : Word) : (s.setO v).bRef = s.bRef := rfl
@[simp] theorem setO_stage (s : State) (v : Word) : (s.setO v).stage = s.stage := rfl
@[simp] theorem setO_burnLeft (s : State) (v : Word) : (s.setO v).burnLeft = s.burnLeft := rfl
@[simp] theorem setO_skip (s : State) (v : Word) : (s.setO v).skip = s.skip := rfl
@[simp] theorem setO_cycles (s : State) (v : Word) : (s.setO v).cycles = s.cycles := rfl
@[simp] theorem setO_fetchAddr (s : State) (v : Word) : (s.setO v).fetchAddr = s.fetchAddr := rfl

@[simp] theorem setSkip_regs (s : State) : s.setSkip.regs = s.regs := rfl
@[simp] theorem setSkip_pc (s : State) : s.setSkip.pc = s.pc := rfl
@[simp] theorem setSkip_sp (s : State) : s.setSkip.sp = s.sp := rfl
@[simp] theorem setSkip_o (s : State) : s.setSkip.o = s.o := rfl
@[simp] theorem setSkip_mem (s : State) : s.setSkip.mem = s.mem := rfl
@[simp] theorem setSkip_inst (s : State) : s.setSkip.inst = s.inst := rfl
@[simp] theorem setSkip_aRef (s : State) : s.setSkip.aRef = s.aRef := rfl
@[simp] theorem setSkip_bRef (s : State) : s.setSkip.bRef = s.bRef := rfl
@[simp] theorem setSkip_stage (s : State) : s.setSkip.stage = s.stage := rfl
@[simp] theorem setSkip_burnLeft (s : State) : s.setSkip.burnLeft = s.burnLeft := rfl
@[simp] theorem setSkip_skip (s : State) : s.setSkip.skip = true := rfl
@[simp] theorem setSkip_cycles (s : State) : s.setSkip.cycles = s.cycles := rfl
@[simp] theorem setSkip_fetchAddr (s : State) : s.setSkip.fetchAddr = s.fetchAddr := rfl

@[simp] theorem addCycles_regs (s : State) (n : Nat) : (s.addCycles n).regs = s.regs := rfl
@[simp] theorem addCycles_pc (s : State) (n : Nat) : (s.addCycles n).pc = s.pc := rfl
@[simp] theorem addCycles_sp (s : State) (n : Nat) : (s.addCycles n).sp = s.sp := rfl
@[simp] theorem addCycles_o (s : State) (n : Nat) : (s.addCycles n).o = s.o := rfl
@[simp] theorem addCycles_mem (s : State) (n : Nat) : (s.addCycles n).mem = s.mem := rfl
@[simp] theorem addCycles_inst (s : State) (n : Nat) : (s.addCycles n).inst = s.inst := rfl
@[simp] theorem addCycles_aRef (s : State) (n : Nat) : (s.addCycles n).aRef = s.aRef := rfl
@[simp] theorem addCycles_bRef (s : State) (n : Nat) : (s.addCycles n).bRef = s.bRef := rfl
@[simp] theorem addCycles_stage (s : State) (n : Nat) : (s.addCycles n).stage = s.stage := rfl
@[simp] theorem addCycles_burnLeft (s : State) (n : Nat) : (s.addCycles n).burnLeft = s.burnLeft := rfl
@[simp] theorem addCycles_skip (s : State) (n : Nat) : (s.addCycles n).skip = s.skip := rfl
@[simp] theorem addCycles_cycles (s : State) (n : Nat) : (s.addCycles n).cycles = s.cycles + n := rfl
@[simp] theorem addCycles_fetchAddr (s : State) (n : Nat) : (s.addCycles n).fetchAddr = s.fetchAddr := rfl
@[simp] theorem addCycles_addCycles (s : State) (m n : Nat) : (s.addCycles m).addCycles n = s.addCycles (m + n) := by
  simp [State.addCycles, Nat.add_assoc]
@[simp] theorem addCycles_zero (s : State) : s.addCycles 0 = s := rfl

@[simp] theorem retire_regs (s : State) : s.retire.regs = s.regs := rfl
@[simp] theorem retire_pc (s : State) : s.retire.pc = s.pc := rfl
@[simp] theorem retire_sp (s : State) : s.retire.sp = s.sp := rfl
@[simp] theorem retire_o (s : State) : s.retire.o = s.o := rfl
@[simp] theorem retire_mem (s : State) : s.retire.mem = s.mem := rfl
@[simp] theorem retire_inst (s : State) : s.retire.inst = 0 := rfl
@[simp] theorem retire_aRef (s : State) : s.retire.aRef = none := rfl
@[simp] theorem retire_bRef (s : State) : s.retire.bRef = none := rfl
@[simp] theorem retire_stage (s : State) : s.retire.stage = .s0 := rfl
@[simp] theorem retire_burnLeft (s : State) : s.retire.burnLeft = 0 := rfl
@[simp] theorem retire_skip (s : State) : s.retire.skip = s.skip := rfl
@[simp] theorem retire_cycles (s : State) : s.retire.cycles = s.cycles := rfl
@[simp] theorem retire_fetchAddr (s : State) : s.retire.fetchAddr = s.fetchAddr := rfl

@[simp] theorem advancePc_eq (s : State) : s.advancePc = s.setPc (s.pc + 1) := rfl

/-! ### Registers -/

@[simp] theorem getReg_setReg_same (s : State) (r : Reg) (v : Word) : (s.setReg r v).getReg r = v := by
  cases r <;> rfl

theorem getReg_setReg_ne (s : State) {r q : Reg} (v : Word) (h : q ≠ r) : (s.setReg r v).getReg q = s.getReg q := by
  cases r <;> cases q <;> first | rfl | exact absurd rfl h

theorem getReg_setReg (s : State) (r q : Reg) (v : Word) :
    (s.setReg r v).getReg q = if q = r then v else s.getReg q := by
  by_cases h : q = r
  · subst h; simp
  · rw [if_neg h, getReg_setReg_ne s v h]

@[simp] theorem getReg_writeMem (s : State) (a v : Word) (r : Reg) : (s.writeMem a v).getReg r = s.getReg r := rfl
@[simp] theorem getReg_setPc (s : State) (v : Word) (r : Reg) : (s.setPc v).getReg r = s.getReg r := rfl
@[simp] theorem getReg_setSp (s : State) (v : Word) (r : Reg) : (s.setSp v).getReg r = s.getReg r := rfl
@[simp] theorem getReg_setO (s : State) (v : Word) (r : Reg) : (s.setO v).getReg r = s.getReg r := rfl
@[simp] theorem getReg_setSkip (s : State) (r : Reg) : s.setSkip.getReg r = s.getReg r := rfl
@[simp] theorem getReg_addCycles (s : State) (n : Nat) (r : Reg) : (s.addCycles n).getReg r = s.getReg r := rfl
@[simp] theorem getReg_retire (s : State) (r : Reg) : s.retire.getReg r = s.getReg r := rfl

@[simp] theorem readMem_setReg (s : State) (r : Reg) (v a : Word) : (s.setReg r v).readMem a = s.readMem a := rfl
@[simp] theorem readMem_setPc (s : State) (v a : Word) : (s.setPc v).readMem a = s.readMem a := rfl
@[simp] theorem readMem_setSp (s : State) (v a : Word) : (s.setSp v).readMem a = s.readMem a := rfl
@[simp] theorem readMem_setO (s : State) (v a : Word) : (s.setO v).readMem a = s.readMem a := rfl
@[simp] theorem readMem_setSkip (s : State) (a : Word) : s.setSkip.readMem a = s.readMem a := rfl
@[simp] theorem readMem_addCycles (s : State) (n : Nat) (a : Word) : (s.addCycles n).readMem a = s.readMem a := rfl
@[simp] theorem readMem_retire (s : State) (a : Word) : s.retire.readMem a = s.readMem a := rfl

end Sys2Proof.Machine
end

