-- ==== Sys2Proof/Laws/Memory.lean ====
section
/-! SUPPORT. The memory list: what its two updates do to a lookup, and that they keep the canonical form. -/

namespace Sys2Proof.Machine

theorem lookup_erase (m : Memory) (a b : Nat) :
    Memory.lookup (Memory.erase m a) b = if b = a then Config.unlistedWord else Memory.lookup m b := by
  induction m with
  | nil => simp [Memory.erase, Memory.lookup]
  | cons cell rest ih =>
    obtain ⟨k, w⟩ := cell
    by_cases hk : k = a
    · subst hk
      simp only [Memory.erase, if_true, ih, Memory.lookup]
      split
      · rfl
      · rw [if_neg (Ne.symm ‹_›)]
    · simp only [Memory.erase, if_neg hk, Memory.lookup, ih]
      by_cases hb : k = b
      · subst hb; simp [hk]
      · simp [hb]

theorem lookup_insert (m : Memory) (a b : Nat) (v : Word) :
    Memory.lookup (Memory.insert m a v) b = if b = a then v else Memory.lookup m b := by
  induction m with
  | nil => simp [Memory.insert, Memory.lookup, eq_comm]
  | cons cell rest ih =>
    obtain ⟨k, w⟩ := cell
    simp only [Memory.insert]
    split
    · simp [Memory.lookup, eq_comm]
    · split
      · rename_i hk
        subst hk
        by_cases hb : b = k
        · subst hb; simp [Memory.lookup]
        · simp [Memory.lookup, hb, Ne.symm hb]
      · rename_i hk
        simp only [Memory.lookup, ih]
        by_cases hb : k = b
        · subst hb; simp [hk]
        · simp [hb]

theorem wfFrom_mono {lo hi : Nat} (m : Memory) (h : hi ≤ lo) (hm : Memory.wfFrom lo m = true) :
    Memory.wfFrom hi m = true := by
  cases m with
  | nil => rfl
  | cons cell rest =>
    simp only [Memory.wfFrom, Bool.and_eq_true, decide_eq_true_eq] at hm ⊢
    exact ⟨⟨⟨le_trans h hm.1.1.1, hm.1.1.2⟩, hm.1.2⟩, hm.2⟩

theorem wfFrom_erase (m : Memory) (a : Nat) : ∀ lo, Memory.wfFrom lo m = true →
    Memory.wfFrom lo (Memory.erase m a) = true := by
  induction m with
  | nil => intro lo _; rfl
  | cons cell rest ih =>
    intro lo h
    simp only [Memory.wfFrom, Bool.and_eq_true, decide_eq_true_eq] at h
    simp only [Memory.erase]
    split
    · exact wfFrom_mono _ (by omega) (ih _ h.2)
    · simp only [Memory.wfFrom, Bool.and_eq_true, decide_eq_true_eq]
      exact ⟨h.1, ih _ h.2⟩

theorem wfFrom_insert (m : Memory) (a : Nat) (v : Word) (ha : a < Config.memWords) (hv : v ≠ Config.unlistedWord) :
    ∀ lo, lo ≤ a → Memory.wfFrom lo m = true → Memory.wfFrom lo (Memory.insert m a v) = true := by
  induction m with
  | nil => intro lo hlo _; simp [Memory.insert, Memory.wfFrom, hlo, ha, hv]
  | cons cell rest ih =>
    intro lo hlo h
    simp only [Memory.wfFrom, Bool.and_eq_true, decide_eq_true_eq, bne_iff_ne] at h
    obtain ⟨⟨⟨h1, h2⟩, h3⟩, h4⟩ := h
    simp only [Memory.insert]
    split
    · simp only [Memory.wfFrom, Bool.and_eq_true, decide_eq_true_eq, bne_iff_ne]
      exact ⟨⟨⟨hlo, ha⟩, hv⟩, ⟨⟨by omega, h2⟩, h3⟩, h4⟩
    · split
      · subst_vars
        simp only [Memory.wfFrom, Bool.and_eq_true, decide_eq_true_eq, bne_iff_ne]
        exact ⟨⟨⟨hlo, ha⟩, hv⟩, h4⟩
      · simp only [Memory.wfFrom, Bool.and_eq_true, decide_eq_true_eq, bne_iff_ne]
        exact ⟨⟨⟨h1, h2⟩, h3⟩, ih _ (by omega) h4⟩

/-- A write keeps the canonical form. -/
theorem wf_write (m : Memory) (addr v : Word) (h : m.wf = true) : (m.write addr v).wf = true := by
  unfold Memory.write Memory.wf
  split
  · exact wfFrom_erase _ _ _ h
  · exact wfFrom_insert _ _ _ addr.isLt ‹_› _ (Nat.zero_le _) h

theorem reset_mem_wf : State.reset.mem.wf = true := rfl

@[simp] theorem writeMem_mem (s : State) (a v : Word) : (s.writeMem a v).mem = s.mem.write a v := rfl

/-- A store changes the word stored to and no other: the form in which the frame lemmas use it. -/
theorem readMem_writeMem_ne (s : State) {a b : Word} (v : Word) (h : b ≠ a) :
    (s.writeMem a v).readMem b = s.readMem b := by
  have hn : b.toNat ≠ a.toNat := fun e => h (BitVec.eq_of_toNat_eq e)
  unfold State.readMem State.writeMem Memory.read Memory.write
  dsimp only
  split
  · rw [lookup_erase, if_neg hn]
  · rw [lookup_insert, if_neg hn]

@[simp] theorem readMem_writeMem_same (s : State) (a v : Word) : (s.writeMem a v).readMem a = v := by
  unfold State.readMem State.writeMem Memory.read Memory.write
  dsimp only
  split
  · rw [lookup_erase, if_pos rfl]; exact (‹v = _›).symm
  · rw [lookup_insert, if_pos rfl]

end Sys2Proof.Machine
end

