-- ==== Sys2Proof/Laws/Operands.lean ====
section
/-! SUPPORT. What the operand resolver, `Read`, `Write` and the frame of a whole instruction do, said once. -/

namespace Sys2Proof.Machine

/-! ### The resolver -/

@[simp] theorem pcChange_of_nextWord {c : Operand} (h : c.hasNextWord = true) : c.pcChange = 1 := by
  simp [Operand.pcChange, h]

@[simp] theorem pcChange_of_noNextWord {c : Operand} (h : c.hasNextWord = false) : c.pcChange = 0 := by
  simp [Operand.pcChange, h]

/-- Everything a resolution does to the state. -/
theorem resolve_state (c : Operand) (s : State) :
    (resolve c s).state = { s with pc := s.pc + c.pcChange, sp := s.sp + c.spChange } := by
  cases c <;> simp [resolve, Operand.pcChange, Operand.hasNextWord, Operand.spChange, State.advancePc, State.setPc,
    State.setSp, BitVec.sub_eq_add_neg]

@[simp] theorem resolve_costed (c : Operand) (s : State) : (resolve c s).costed = c.hasNextWord := by
  cases c <;> rfl

/-- The resolver reads registers, PC, SP and memory only: states that agree on them resolve alike. -/
theorem resolve_ref_congr (c : Operand) {s t : State} (hr : t.regs = s.regs) (hp : t.pc = s.pc) (hs : t.sp = s.sp)
    (hm : t.mem = s.mem) : (resolve c t).ref = (resolve c s).ref := by
  cases c <;> simp [resolve, State.wordAtPc, State.readMem, State.getReg, hr, hp, hs, hm]

@[simp] theorem resolve_regs (c : Operand) (s : State) : (resolve c s).state.regs = s.regs := by rw [resolve_state]
@[simp] theorem resolve_pc (c : Operand) (s : State) : (resolve c s).state.pc = s.pc + c.pcChange := by rw [resolve_state]
@[simp] theorem resolve_sp (c : Operand) (s : State) : (resolve c s).state.sp = s.sp + c.spChange := by rw [resolve_state]
@[simp] theorem resolve_o (c : Operand) (s : State) : (resolve c s).state.o = s.o := by rw [resolve_state]
@[simp] theorem resolve_mem (c : Operand) (s : State) : (resolve c s).state.mem = s.mem := by rw [resolve_state]
@[simp] theorem resolve_inst (c : Operand) (s : State) : (resolve c s).state.inst = s.inst := by rw [resolve_state]
@[simp] theorem resolve_aRef (c : Operand) (s : State) : (resolve c s).state.aRef = s.aRef := by rw [resolve_state]
@[simp] theorem resolve_bRef (c : Operand) (s : State) : (resolve c s).state.bRef = s.bRef := by rw [resolve_state]
@[simp] theorem resolve_stage (c : Operand) (s : State) : (resolve c s).state.stage = s.stage := by rw [resolve_state]
@[simp] theorem resolve_burnLeft (c : Operand) (s : State) : (resolve c s).state.burnLeft = s.burnLeft := by
  rw [resolve_state]
@[simp] theorem resolve_skip (c : Operand) (s : State) : (resolve c s).state.skip = s.skip := by rw [resolve_state]
@[simp] theorem resolve_cycles (c : Operand) (s : State) : (resolve c s).state.cycles = s.cycles := by rw [resolve_state]
@[simp] theorem resolve_fetchAddr (c : Operand) (s : State) : (resolve c s).state.fetchAddr = s.fetchAddr := by
  rw [resolve_state]
@[simp] theorem resolve_getReg (c : Operand) (s : State) (r : Reg) : (resolve c s).state.getReg r = s.getReg r := by
  simp [State.getReg]
@[simp] theorem resolve_readMem (c : Operand) (s : State) (a : Word) :
    (resolve c s).state.readMem a = s.readMem a := by
  simp [State.readMem]

/-- A resolution refers to a register, to SP, PC or O exactly as the operand itself. -/
theorem resolve_ref_eq_reg {c : Operand} {s : State} {r : Reg} : (resolve c s).ref = .reg r ↔ c = .reg r := by
  cases c <;> simp [resolve]
theorem resolve_ref_eq_sp {c : Operand} {s : State} : (resolve c s).ref = .sp ↔ c = .sp := by
  cases c <;> simp [resolve]
theorem resolve_ref_eq_pc {c : Operand} {s : State} : (resolve c s).ref = .pc ↔ c = .pc := by
  cases c <;> simp [resolve]
theorem resolve_ref_eq_o {c : Operand} {s : State} : (resolve c s).ref = .o ↔ c = .o := by
  cases c <;> simp [resolve]

/-! ### Reading and writing through a reference -/

@[simp] theorem writeRef_imm (s : State) (lit v : Word) : s.writeRef (.imm lit) v = s := rfl

theorem readRef_writeRef_same (s : State) (ref : OpRef) (v : Word) (h : ∀ lit, ref ≠ .imm lit) :
    (s.writeRef ref v).readRef ref = v := by
  cases ref with
  | imm lit => exact absurd rfl (h lit)
  | reg r => simp [State.writeRef, State.readRef]
  | mem a => simp [State.writeRef, State.readRef]
  | sp => rfl
  | pc => rfl
  | o => rfl

theorem readRef_writeRef_ne (s : State) {ref other : OpRef} (v : Word) (h : other ≠ ref) :
    (s.writeRef ref v).readRef other = s.readRef other := by
  cases ref <;> cases other <;>
    first
    | rfl
    | exact absurd rfl h
    | exact getReg_setReg_ne s v (fun e => h (congrArg OpRef.reg e))
    | exact readMem_writeMem_ne s v (fun e => h (congrArg OpRef.mem e))

theorem writeRef_getReg (s : State) {ref : OpRef} (v : Word) {r : Reg} (h : ref ≠ .reg r) :
    (s.writeRef ref v).getReg r = s.getReg r := readRef_writeRef_ne s (other := .reg r) v (Ne.symm h)
theorem writeRef_readMem (s : State) {ref : OpRef} (v : Word) {a : Word} (h : ref ≠ .mem a) :
    (s.writeRef ref v).readMem a = s.readMem a := readRef_writeRef_ne s (other := .mem a) v (Ne.symm h)
theorem writeRef_pc (s : State) {ref : OpRef} (v : Word) (h : ref ≠ .pc) : (s.writeRef ref v).pc = s.pc :=
  readRef_writeRef_ne s (other := .pc) v (Ne.symm h)
theorem writeRef_sp (s : State) {ref : OpRef} (v : Word) (h : ref ≠ .sp) : (s.writeRef ref v).sp = s.sp :=
  readRef_writeRef_ne s (other := .sp) v (Ne.symm h)
theorem writeRef_o (s : State) {ref : OpRef} (v : Word) (h : ref ≠ .o) : (s.writeRef ref v).o = s.o :=
  readRef_writeRef_ne s (other := .o) v (Ne.symm h)
@[simp] theorem writeRef_inst (s : State) (ref : OpRef) (v : Word) : (s.writeRef ref v).inst = s.inst := by
  cases ref <;> rfl
@[simp] theorem writeRef_aRef (s : State) (ref : OpRef) (v : Word) : (s.writeRef ref v).aRef = s.aRef := by
  cases ref <;> rfl
@[simp] theorem writeRef_bRef (s : State) (ref : OpRef) (v : Word) : (s.writeRef ref v).bRef = s.bRef := by
  cases ref <;> rfl
@[simp] theorem writeRef_stage (s : State) (ref : OpRef) (v : Word) : (s.writeRef ref v).stage = s.stage := by
  cases ref <;> rfl
@[simp] theorem writeRef_burnLeft (s : State) (ref : OpRef) (v : Word) : (s.writeRef ref v).burnLeft = s.burnLeft := by
  cases ref <;> rfl
@[simp] theorem writeRef_skip (s : State) (ref : OpRef) (v : Word) : (s.writeRef ref v).skip = s.skip := by
  cases ref <;> rfl
@[simp] theorem writeRef_cycles (s : State) (ref : OpRef) (v : Word) : (s.writeRef ref v).cycles = s.cycles := by
  cases ref <;> rfl
@[simp] theorem writeRef_fetchAddr (s : State) (ref : OpRef) (v : Word) : (s.writeRef ref v).fetchAddr = s.fetchAddr := by
  cases ref <;> rfl

/-- A write through a reference keeps memory's canonical form. -/
theorem wf_writeRef (s : State) (ref : OpRef) (v : Word) (h : s.mem.wf = true) : (s.writeRef ref v).mem.wf = true := by
  cases ref <;> first | exact h | exact wf_write _ _ _ h

/-! ### The state in which the execute stage starts -/

/-- Both operands' effects at once. -/
theorem resolvedState_eq (a b : Operand) (s : State) :
    resolvedState a b s =
      { s with pc := s.pc + a.pcChange + b.pcChange, sp := s.sp + a.spChange + b.spChange } := by
  simp [resolvedState, resolve_state]

/-- A whole basic instruction is its execute stage on the resolved operands, plus the cycle count. -/
theorem runBasic_next (stage : OpRef → OpRef → State → Executed) (a b : Operand) (s : State) :
    runBasic stage a b s =
      let done := stage (destRef a s) (resolve b (resolve a s).state).ref (resolvedState a b s)
      .next (done.state.addCycles (a.resolveCycles + b.resolveCycles + done.cycles)) := by
  simp [runBasic, destRef, resolvedState, Operand.resolveCycles]

/-- A whole extended instruction is its execute stage on the resolved operand, plus the cycle count. -/
theorem runExtended_next (stage : OpRef → State → Executed) (a : Operand) (s : State) :
    runExtended stage a s =
      let done := stage (resolve a s).ref (resolve a s).state
      .next (done.state.addCycles (a.resolveCycles + done.cycles)) := by
  simp [runExtended, Operand.resolveCycles]

end Sys2Proof.Machine
end

