-- ==== Sys2Proof/Laws/Sequencer.lean ====
section
/-! SUPPORT. The sequencer's definitions, said once: the shape of a plan, the stages an execute stage does not look at,
and what each stage of a cycle answers. -/

namespace Sys2Proof.Machine

/-! ### Execute stages do not see the sequencer's working set -/

/-- The state with its working set (but for `skip`), cycle counter and fetch address taken from another. -/
def State.withWorkingSet (s q : State) : State :=
  { s with
    inst := q.inst, aRef := q.aRef, bRef := q.bRef, stage := q.stage, burnLeft := q.burnLeft,
    cycles := q.cycles, fetchAddr := q.fetchAddr }

/-- An execute stage that neither reads nor writes the working set. -/
def Transparent (f : State → Executed) : Prop :=
  ∀ s q : State, f (s.withWorkingSet q) = { state := (f s).state.withWorkingSet q, cycles := (f s).cycles }

theorem readRef_withWorkingSet (s q : State) (ref : OpRef) : (s.withWorkingSet q).readRef ref = s.readRef ref := by
  cases ref <;> rfl

theorem writeRef_withWorkingSet (s q : State) (ref : OpRef) (v : Word) :
    (s.withWorkingSet q).writeRef ref v = (s.writeRef ref v).withWorkingSet q := by
  cases ref <;> rfl

theorem writeStage_transparent (f : Word → Word → Word) (ra rb : OpRef) : Transparent (writeStage f ra rb) := by
  intro s q
  simp only [writeStage, readRef_withWorkingSet, writeRef_withWorkingSet]

theorem writeThenO_transparent (f g : Word → Word → Word) (n : Nat) (ra rb : OpRef) :
    Transparent (writeThenO f g n ra rb) := by
  intro s q
  simp only [writeThenO, readRef_withWorkingSet, writeRef_withWorkingSet]
  rfl

theorem modStage_transparent (ra rb : OpRef) : Transparent (modStage ra rb) := by
  intro s q
  simp only [modStage, readRef_withWorkingSet, writeRef_withWorkingSet]

theorem shrStage_transparent (ra rb : OpRef) : Transparent (shrStage ra rb) := by
  intro s q
  simp only [shrStage, readRef_withWorkingSet]
  rw [show ∀ v, (s.withWorkingSet q).setO v = (s.setO v).withWorkingSet q from fun _ => rfl,
    writeRef_withWorkingSet]

theorem testStage_transparent (test : Word → Word → Bool) (ra rb : OpRef) : Transparent (testStage test ra rb) := by
  intro s q
  simp only [testStage, readRef_withWorkingSet]
  split <;> rfl

theorem jsrStage_transparent (ra : OpRef) : Transparent (jsrStage ra) := by
  intro s q
  simp only [jsrStage, readRef_withWorkingSet]
  rfl

/-- The plan's execute stage is transparent. -/
def Plan.IsTransparent : Plan → Prop
  | .basic _ _ stage => ∀ ra rb, Transparent (stage ra rb)
  | .extended _ stage => ∀ ra, Transparent (stage ra)
  | .discard => True

theorem planOf_transparent (i : Instr) : (planOf i).IsTransparent := by
  cases i <;>
    first
    | exact trivial
    | exact fun ra rb => writeStage_transparent _ ra rb
    | exact fun ra rb => writeThenO_transparent _ _ _ ra rb
    | exact fun ra rb => modStage_transparent ra rb
    | exact fun ra rb => shrStage_transparent ra rb
    | exact fun ra rb => testStage_transparent _ ra rb
    | exact fun ra => jsrStage_transparent ra

/-! ### Plans and meanings -/

/-- The whole of an instruction, by its plan. -/
def Plan.run (s : State) : Plan → Host.Outcome State Fault Refusal
  | .basic a b stage => runBasic stage a b s
  | .extended a stage => runExtended stage a s
  | .discard => .next s

/-- Every meaning is the run of its plan: `exec` and the cycle scheduler run the same stages. -/
theorem exec_eq_run (i : Instr) (s : State) : exec i s = (planOf i).run s := by cases i <;> rfl

/-- `exec` always answers a next state. -/
theorem exec_next (i : Instr) (s : State) : ∃ t, exec i s = .next t := by
  rw [exec_eq_run]; cases planOf i <;> exact ⟨_, rfl⟩

/-- What the plan of a decoded word says of its fields (46_sequencer.md R175, R176). -/
theorem planOf_decodeWord (w : Word) :
    (opField w ≠ 0 → ∃ stage, planOf (decodeWord w) =
      .basic (Operand.ofCode (midField w)) (Operand.ofCode (highField w)) stage) ∧
    (opField w = 0 → midField w = jsrXop →
      planOf (decodeWord w) = .extended (Operand.ofCode (highField w)) jsrStage) ∧
    (opField w = 0 → midField w ≠ jsrXop → planOf (decodeWord w) = .discard) := by
  have h16 : (opField w).toNat < 16 := (opField w).isLt
  have hz : opField w = 0 ↔ (opField w).toNat = 0 := by
    rw [← BitVec.toNat_inj]; rfl
  unfold decodeWord
  simp only [hz, ne_eq]
  generalize (opField w).toNat = n at *
  refine ⟨fun h => ?_, fun h hm => ?_, fun h hm => ?_⟩
  · interval_cases n <;> first | exact absurd rfl h | exact ⟨_, rfl⟩
  · subst h; simp [hm, planOf]
  · subst h; simp [hm, planOf]

/-- `Execute()` with both references there, under a basic plan. -/
theorem executeStage_basic {s : State} {a b : Operand} {stage : OpRef → OpRef → State → Executed} {ra rb : OpRef}
    (hp : planOf (decodeWord s.inst) = .basic a b stage) (ha : s.aRef = some ra) (hb : s.bRef = some rb) :
    executeStage s = .ok (stage ra rb s) := by
  simp [executeStage, hp, ha, hb]

/-- `Execute()` with its reference there, under an extended plan. -/
theorem executeStage_extended {s : State} {a : Operand} {stage : OpRef → State → Executed} {ra : OpRef}
    (hp : planOf (decodeWord s.inst) = .extended a stage) (ha : s.aRef = some ra) :
    executeStage s = .ok (stage ra s) := by
  simp [executeStage, hp, ha]

/-- Every basic plan owes at most two execute cycles, and keeps memory's canonical form. -/
theorem basic_stage_bounds {i : Instr} {a b : Operand} {stage : OpRef → OpRef → State → Executed}
    (hp : planOf i = .basic a b stage) (ra rb : OpRef) (s : State) :
    (stage ra rb s).cycles ≤ 2 ∧ (s.mem.wf = true → (stage ra rb s).state.mem.wf = true) := by
  cases i <;> simp only [planOf, Plan.basic.injEq, reduceCtorEq] at hp <;> obtain ⟨-, -, rfl⟩ := hp <;>
    first
    | exact ⟨by simp [setStage, andStage, borStage, xorStage, writeStage], fun h => wf_writeRef _ _ _ h⟩
    | exact ⟨by simp [addStage, subStage, mulStage, divStage, shlStage, writeThenO], fun h => wf_writeRef _ _ _ h⟩
    | exact ⟨by simp [modStage], fun h => wf_writeRef _ _ _ h⟩
    | exact ⟨by simp [shrStage], fun h => wf_writeRef _ _ _ h⟩
    | (simp only [ifeStage, ifnStage, ifgStage, ifbStage, testStage]
       split <;> exact ⟨by simp, fun h => h⟩)

/-- A basic stage that owes at most one execute cycle leaves `skip` alone. -/
theorem basic_stage_skip {i : Instr} {a b : Operand} {stage : OpRef → OpRef → State → Executed}
    (hp : planOf i = .basic a b stage) (ra rb : OpRef) (s : State) (hn : (stage ra rb s).cycles ≤ 1) :
    (stage ra rb s).state.skip = s.skip := by
  cases i <;> simp only [planOf, Plan.basic.injEq, reduceCtorEq] at hp <;> obtain ⟨-, -, rfl⟩ := hp <;>
    first
    | (simp [setStage, andStage, borStage, xorStage, writeStage])
    | (simp [addStage, subStage, mulStage, shlStage, divStage, writeThenO])
    | (simp [modStage])
    | (simp [shrStage])
    | (simp only [ifeStage, ifnStage, ifgStage, ifbStage, testStage] at hn ⊢
       split at hn
       · simp_all
       · simp at hn)

end Sys2Proof.Machine
end

