-- ==== Sys2Proof/Laws/PerInstr.lean ====
section
/-! SUPPORT. Statements made per instruction: the length the skip reads off an instruction's own first word. -/

namespace Sys2Proof

/-- The next words that an instruction's operand codes call for. A reserved word's code calls for one although
executing the word does not take it (30_encoding.md R66; log 10). -/
def Instr.codedOperandWords : Instr → Nat
  | .set a b | .add a b | .sub a b | .mul a b | .div a b | .mod a b | .shl a b | .shr a b
  | .and a b | .bor a b | .xor a b | .ife a b | .ifn a b | .ifg a b | .ifb a b =>
      a.hasNextWord.toNat + b.hasNextWord.toNat
  | .jsr a | .reserved _ a => a.hasNextWord.toNat

/-! ### The fields of an encoded word -/

theorem opField_basicWord (op : BitVec 4) (a b : Operand) : opField (basicWord op a b) = op := by
  unfold opField basicWord
  generalize a.code = x
  generalize b.code = y
  ext k hk
  interval_cases k <;> simp

theorem midField_basicWord (op : BitVec 4) (a b : Operand) : midField (basicWord op a b) = a.code := by
  unfold midField basicWord
  generalize a.code = x
  generalize b.code = y
  ext k hk
  interval_cases k <;> simp [BitVec.getLsbD_of_ge]

theorem highField_basicWord (op : BitVec 4) (a b : Operand) : highField (basicWord op a b) = b.code := by
  unfold highField basicWord
  generalize a.code = x
  generalize b.code = y
  ext k hk
  interval_cases k <;> simp [BitVec.getLsbD_of_ge]

theorem opField_extendedWord (xop : BitVec 6) (a : Operand) : opField (extendedWord xop a) = 0 := by
  unfold opField extendedWord
  generalize a.code = x
  ext k hk
  interval_cases k <;> simp

theorem highField_extendedWord (xop : BitVec 6) (a : Operand) : highField (extendedWord xop a) = a.code := by
  unfold highField extendedWord
  generalize a.code = x
  ext k hk
  interval_cases k <;> simp [BitVec.getLsbD_of_ge]

/-- The codes that take a word are those of the forms that do. -/
theorem takesWord_code (c : Operand) : takesWord c.code = c.hasNextWord := by
  cases c with
  | reg r => cases r <;> decide
  | regInd r => cases r <;> decide
  | indexed r => cases r <;> decide
  | smallLit v => revert v; decide
  | _ => decide

theorem lenOfWord_basicWord (op : BitVec 4) (a b : Operand) (h : op ≠ 0) :
    lenOfWord (basicWord op a b) = 1 + (a.hasNextWord.toNat + b.hasNextWord.toNat) := by
  simp only [lenOfWord, opField_basicWord, midField_basicWord, highField_basicWord, takesWord_code, if_pos h]
  omega

theorem lenOfWord_extendedWord (xop : BitVec 6) (a : Operand) :
    lenOfWord (extendedWord xop a) = 1 + a.hasNextWord.toNat := by
  simp [lenOfWord, opField_extendedWord, highField_extendedWord, takesWord_code]

namespace Laws.LenOfWord

/-- `Len` of an instruction's first word is one more than the next words its operand codes call for
(30_encoding.md R66). -/
def Statement (i : Instr) : Prop := lenOfWord (encodeWord i) = 1 + i.codedOperandWords

theorem set (a b : Operand) : Statement (.set a b) := lenOfWord_basicWord _ a b (by decide)
theorem add (a b : Operand) : Statement (.add a b) := lenOfWord_basicWord _ a b (by decide)
theorem sub (a b : Operand) : Statement (.sub a b) := lenOfWord_basicWord _ a b (by decide)
theorem mul (a b : Operand) : Statement (.mul a b) := lenOfWord_basicWord _ a b (by decide)
theorem div (a b : Operand) : Statement (.div a b) := lenOfWord_basicWord _ a b (by decide)
theorem mod (a b : Operand) : Statement (.mod a b) := lenOfWord_basicWord _ a b (by decide)
theorem shl (a b : Operand) : Statement (.shl a b) := lenOfWord_basicWord _ a b (by decide)
theorem shr (a b : Operand) : Statement (.shr a b) := lenOfWord_basicWord _ a b (by decide)
theorem and (a b : Operand) : Statement (.and a b) := lenOfWord_basicWord _ a b (by decide)
theorem bor (a b : Operand) : Statement (.bor a b) := lenOfWord_basicWord _ a b (by decide)
theorem xor (a b : Operand) : Statement (.xor a b) := lenOfWord_basicWord _ a b (by decide)
theorem ife (a b : Operand) : Statement (.ife a b) := lenOfWord_basicWord _ a b (by decide)
theorem ifn (a b : Operand) : Statement (.ifn a b) := lenOfWord_basicWord _ a b (by decide)
theorem ifg (a b : Operand) : Statement (.ifg a b) := lenOfWord_basicWord _ a b (by decide)
theorem ifb (a b : Operand) : Statement (.ifb a b) := lenOfWord_basicWord _ a b (by decide)
theorem jsr (a : Operand) : Statement (.jsr a) := lenOfWord_extendedWord _ a
theorem reserved (xop : BitVec 6) (a : Operand) : Statement (.reserved xop a) := lenOfWord_extendedWord xop a

end Laws.LenOfWord

end Sys2Proof
end

