-- ==== Sys2Proof/Tests/Slice0.lean ====
section
/-! SUPPORT. The model's own tests. Expected words and values are those of 30_encoding.md and of the vectors of
95_test_vectors.md whose id stands in each comment; the witnesses at the end show that no statement's hypotheses are
empty. -/

namespace Sys2Proof.Tests

open Sys2Proof Sys2Proof.Machine

/-! ### WellFormed refuses the ill-formed -/

/-- JSR's own `xop` is not a reserved one (R70, R71). -/
theorem test_reserved_with_jsr_xop_refused : (Instr.reserved 0x01 (.reg .a)).wellFormed = false := by decide
theorem test_reserved_accepted : (Instr.reserved 0x02 (.reg .a)).wellFormed = true := by decide
/-- SET A, next word without its operand word (R68). -/
theorem test_missing_operand_word_refused : (Instr.set (.reg .a) .nextLit).wellFormedWith [] = false := by decide
theorem test_spare_operand_word_refused : (Instr.set (.reg .a) (.reg .b)).wellFormedWith [0] = false := by decide
theorem test_both_operand_words_accepted : (Instr.set .absolute .nextLit).wellFormedWith [0x1000, 0x20] = true := by
  decide
/-- A reserved word takes no operand word, whatever its operand code (R162). -/
theorem test_reserved_operand_word_refused : (Instr.reserved 0x02 .nextLit).wellFormedWith [0] = false := by decide

/-! ### Decoding words written out from 30_encoding.md R61, R62, R64 -/

/-- 011111 000000 0001. -/
theorem test_decode_set : decodeWord 0x7C01 = .set (.reg .a) .nextLit := by decide
/-- 000001 000000 0010. -/
theorem test_decode_add : decodeWord 0x0402 = .add (.reg .a) (.reg .b) := by decide
/-- 100001 011100 0011. -/
theorem test_decode_sub : decodeWord 0x85C3 = .sub .pc (.smallLit 1) := by decide
/-- 100010 011101 0100. -/
theorem test_decode_mul : decodeWord 0x89D4 = .mul .o (.smallLit 2) := by decide
/-- 100000 100111 0101. -/
theorem test_decode_div : decodeWord 0x8275 = .div (.smallLit 7) (.smallLit 0) := by decide
/-- 011110 011110 0110. -/
theorem test_decode_mod : decodeWord 0x79E6 = .mod .absolute .absolute := by decide
/-- 110000 000000 0111. -/
theorem test_decode_shl : decodeWord 0xC007 = .shl (.reg .a) (.smallLit 16) := by decide
/-- 100001 011101 1000. -/
theorem test_decode_shr : decodeWord 0x85D8 = .shr .o (.smallLit 1) := by decide
/-- 011111 011110 1001. -/
theorem test_decode_and : decodeWord 0x7DE9 = .and .absolute .nextLit := by decide
/-- 101111 000000 1010. -/
theorem test_decode_bor : decodeWord 0xBC0A = .bor (.reg .a) (.smallLit 15) := by decide
/-- 011111 011011 1011. -/
theorem test_decode_xor : decodeWord 0x7DBB = .xor .sp .nextLit := by decide
/-- 100000 011000 1100. -/
theorem test_decode_ife : decodeWord 0x818C = .ife .pop (.smallLit 0) := by decide
/-- 010001 010000 1101. -/
theorem test_decode_ifn : decodeWord 0x450D = .ifn (.indexed .a) (.indexed .b) := by decide
/-- 000110 100100 1110. -/
theorem test_decode_ifg : decodeWord 0x1A4E = .ifg (.smallLit 4) (.reg .i) := by decide
/-- 011001 001111 1111. -/
theorem test_decode_ifb : decodeWord 0x64FF = .ifb (.regInd .j) .peek := by decide
/-- 011010 000001 0000. -/
theorem test_decode_jsr : decodeWord 0x6810 = .jsr .push := by decide
/-- 011111 000010 0000. -/
theorem test_decode_reserved : decodeWord 0x7C20 = .reserved 0x02 .nextLit := by decide
/-- R72: the zero word. -/
theorem test_decode_zero : decodeWord 0x0000 = .reserved 0x00 (.reg .a) := by decide
/-- O16: SET [0x1000], 0x0020, the word of `a` before the word of `b`. -/
theorem test_decode_operand_words :
    decode [0x7DE1, 0x1000, 0x0020, 0x85C3] =
      .ok { instr := .set .absolute .nextLit, operandWords := [0x1000, 0x0020], rest := [0x85C3] } := by decide
theorem test_decode_truncated : decode [0x7DE1, 0x1000] = .error .missingOperandWords := by decide
theorem test_decode_empty : decode [] = .error .noFirstWord := by decide
theorem test_encode_halt : encodeWord (.sub .pc (.smallLit 1)) = 0x85C3 := by decide
theorem test_table_word_three_words : decodeTableWord 48 0x002010007DE1 = some (.set .absolute .nextLit) := by decide
theorem test_table_word_one_word : decodeTableWord 16 0x7DE1 = some (.set .absolute .nextLit) := by decide
/-- IF17, IF20: a skip passes three words, and both words of a reserved word with a next-word operand code. -/
theorem test_len_three : lenOfWord 0x7DE1 = 3 := by decide
theorem test_len_reserved : lenOfWord 0x7C20 = 2 := by decide

/-! ### One step from a small state -/

/-- The reset state with A, B, PC and O given and the words placed at PC. -/
def start (a b pc o : Word) (words : List Word) : State :=
  let s := State.reset
  (((((s.setReg .a a).setReg .b b).setPc pc).setO o).load pc words)

/-- One step's next state. -/
def stepped (s : State) : Option State :=
  match step s with
  | .next t => some t
  | .fault _ => none
  | .refused _ => none

/-- A, PC, O and the cycles a step took. -/
def seen (t : State) : Word × Word × Word × Nat := (t.getReg .a, t.pc, t.o, t.cycles)

/-- O9: PC as an operand reads as the address after the instruction. -/
theorem test_set_pc_source : (stepped (start 0 0 0x40 7 [0x7001])).map seen = some (0x41, 0x41, 7, 1) := by decide
/-- O25: SET PUSH, SP stores the lowered SP. -/
theorem test_set_push_sp :
    (stepped ((start 0 0 0 0 [0x6DA1]).setSp 0xFFF0)).map (fun t => (t.sp, t.readMem 0xFFEF)) =
      some (0xFFEF, 0xFFEF) := by decide
/-- L7. -/
theorem test_add_carry : (stepped (start 0xFFFF 1 0 0 [0x0402])).map seen = some (0, 1, 1, 2) := by decide
/-- A6: with `a` = O the carry stands. -/
theorem test_add_to_o : (stepped (start 0 0 0 5 [0x85D2])).map seen = some (0, 1, 0, 2) := by decide
/-- L8. -/
theorem test_sub_borrow : (stepped (start 0 1 0 0 [0x0403])).map seen = some (0xFFFF, 1, 0xFFFF, 2) := by decide
/-- B8: the halt word at 0xFFFF. -/
theorem test_sub_halt_at_top : (stepped (start 0 0 0xFFFF 0 [0x85C3])).map seen = some (0, 0xFFFF, 0xFFFF, 2) := by
  decide
/-- M1. -/
theorem test_mul_high_half : (stepped (start 0xFFFF 0xFFFF 0 0 [0x0404])).map seen = some (1, 1, 0xFFFE, 2) := by
  decide
/-- DV8. -/
theorem test_div_fraction : (stepped (start 0x8000 3 0 0 [0x0405])).map seen = some (0x2AAA, 1, 0xAAAA, 3) := by
  decide
/-- L9. -/
theorem test_div_by_zero : (stepped (start 0xBEEF 0 0 0x1111 [0x0405])).map seen = some (0, 1, 0, 3) := by decide
/-- MD7. -/
theorem test_mod : (stepped (start 0xFFFF 0x8000 0 0x7777 [0x0406])).map seen = some (0x7FFF, 1, 0x7777, 3) := by
  decide
/-- L10. -/
theorem test_mod_by_zero : (stepped (start 0xBEEF 0 0 0x1111 [0x0406])).map seen = some (0, 1, 0x1111, 3) := by
  decide
/-- H7. -/
theorem test_shl_17 : (stepped (start 0x8001 0 0 0 [0xC407])).map seen = some (0, 1, 2, 2) := by decide
/-- H9: a count of 32. -/
theorem test_shl_32 : (stepped (start 0xFFFF 0x20 0 0x5555 [0x0407])).map seen = some (0, 1, 0, 2) := by decide
/-- G5. -/
theorem test_shr_15 : (stepped (start 0xFFFF 0 0 0 [0xBC08])).map seen = some (1, 1, 0xFFFE, 2) := by decide
/-- G11: with `a` = O the shifted value stands. -/
theorem test_shr_to_o : (stepped (start 0 0 0 3 [0x85D8])).map seen = some (0, 1, 1, 2) := by decide
/-- S7. -/
theorem test_and : (stepped (start 0xFFFF 0x5555 0 0x7777 [0x0409])).map seen = some (0x5555, 1, 0x7777, 1) := by
  decide
/-- S10. -/
theorem test_bor : (stepped (start 0x00F0 0 0 0 [0xBC0A])).map seen = some (0x00FF, 1, 0, 1) := by decide
/-- S14. -/
theorem test_xor : (stepped (start 0x1234 0 0 0 [0x7C0B, 0xFFFF])).map seen = some (0xEDCB, 2, 0, 2) := by decide
/-- IF1 and IF2, the conditional alone. -/
theorem test_ife_fails :
    (stepped (start 1 0 0 0 [0x880C])).map (fun t => (t.skip, t.pc, t.cycles)) = some (true, 1, 3) := by decide
theorem test_ife_holds :
    (stepped (start 1 0 0 0 [0x840C])).map (fun t => (t.skip, t.pc, t.cycles)) = some (false, 1, 2) := by decide
/-- IF4. -/
theorem test_ifn_fails :
    (stepped (start 5 0 0 0 [0x940D])).map (fun t => (t.skip, t.pc, t.cycles)) = some (true, 1, 3) := by decide
/-- IF7: unsigned. -/
theorem test_ifg_unsigned :
    (stepped (start 0x8000 0x7FFF 0 0 [0x040E])).map (fun t => (t.skip, t.cycles)) = some (false, 2) := by decide
/-- IF11. -/
theorem test_ifb_no_common_bit :
    (stepped (start 0xF0 0 0 0 [0xBC0F])).map (fun t => (t.skip, t.cycles)) = some (true, 3) := by decide
/-- J1. -/
theorem test_jsr :
    (stepped (start 0 0 0 0 [0x7C10, 0x0100])).map (fun t => (t.pc, t.sp, t.readMem 0xFFFE, t.cycles)) =
      some (0x100, 0xFFFE, 2, 3) := by decide
/-- J15: the operand is read before the push overwrites it. -/
theorem test_jsr_operand_before_push :
    (stepped ((start 0 0 0 0 [0x7810, 0xFFFE]).writeMem 0xFFFE 0x800)).map
      (fun t => (t.pc, t.sp, t.readMem 0xFFFE, t.cycles)) = some (0x800, 0xFFFE, 2, 3) := by decide
/-- X3: the operand word of a reserved word is not taken. -/
theorem test_reserved : (stepped (start 0 0 0 0 [0x7C20, 0x8401])).map seen = some (0, 1, 0, 1) := by decide
/-- X7. -/
theorem test_reserved_zero_at_top : (stepped (start 0 0 0xFFFF 0 [])).map seen = some (0, 0, 0, 1) := by decide
/-- Z3. -/
theorem test_load_wraps :
    (State.reset.load 0xFFFF [0x1111, 0x2222]).mem = [(0x0000, 0x2222), (0xFFFF, 0x1111)] := by decide

/-! ### One clock cycle -/

/-- T2 of 95_test_vectors.md section 5, cycle 3: SET's free execute stage, then the fetch of the next word. -/
theorem test_cycle_execute_then_fetch :
    (stepCycle { start 0 0 2 0 [0x85C3] with
      inst := 0x7C01, aRef := some (.reg .a), bRef := some (.imm 0x30), stage := .s3 }).toOption.map
        (fun r => (r.state.getReg .a, r.state.inst, r.state.pc, r.state.stage, r.report)) =
      some (0x30, 0x85C3, 3, .s1, { retired := 1, last := some { addr := 0, pc := 2 } }) := by decide
/-- T5, cycle 6: AND's three free stages, then the fetch of a zero word, which retires too. -/
theorem test_cycle_two_retirements :
    (stepCycle { start 0xFFFF 0x5555 5 0 [] with inst := 0x0409, stage := .s1, fetchAddr := 4 }).toOption.map
        (fun r => (r.state.getReg .a, r.state.inst, r.state.pc, r.state.stage, r.report)) =
      some (0x5555, 0, 6, .s0, { retired := 2, last := some { addr := 5, pc := 6 } }) := by decide
/-- T1: from its S1, the halt word executes and retires at its own address in one cycle. -/
theorem test_cycle_halt :
    (stepCycle { start 0 0 1 0 [] with inst := 0x85C3, stage := .s1 }).toOption.map
        (fun r => (r.state.pc, r.state.o, r.state.stage, r.report)) =
      some (0, 0, .s0, { retired := 1, last := some { addr := 0, pc := 0 } }) := by decide

/-! ### Witnesses: states and operands that meet the statements' hypotheses -/

/-- A state with A = 1, B = 0, the words at PC, ready to fetch. -/
def ready (words : List Word) : State := start 1 0 0 0 words

theorem witness_DecodeOfEncode :
    (Instr.set .absolute .nextLit).wellFormedWith [0x1000, 0x20] = true ∧
    (Instr.reserved 0x3F .nextLit).wellFormedWith [] = true := by decide

/-- With a register and with a literal as destination. -/
theorem witness_DivisionByZeroGivesZero :
    valueB (.reg .a) (.reg .b) (ready []) = 0 ∧
    valueB (.smallLit 7) (.smallLit 0) (ready []) = 0 ∧ destRef (.smallLit 7) (ready []) = .imm 7 := by decide

theorem witness_ReservedWordIsOneWordNoOp :
    (ready [0x7C20]).Clean ∧ (ready [0x7C20]).skip = false ∧
    opField ((ready [0x7C20]).readMem (ready [0x7C20]).pc) = 0 ∧
    midField ((ready [0x7C20]).readMem (ready [0x7C20]).pc) ≠ 0x01 := by decide

theorem witness_LiteralDestinationIsDiscarded :
    (Instr.mod (.smallLit 5) (.reg .a)).destination = some (.smallLit 5) ∧
    (Instr.mod (.smallLit 5) (.reg .a)).source = some (.reg .a) ∧
    (∃ v, destRef (.smallLit 5) (ready []) = .imm v) ∧
    (Instr.mod (.smallLit 5) (.reg .a)).writesOverflow = false :=
  ⟨rfl, rfl, ⟨_, rfl⟩, rfl⟩

theorem witness_OnlyArithmeticAndShiftsWriteO :
    ∃ t, exec (.mod (.reg .a) (.reg .b)) (ready []) = .next t ∧
      (Instr.mod (.reg .a) (.reg .b)).writesOverflow = false ∧
      (Instr.mod (.reg .a) (.reg .b)).destination ≠ some .o :=
  ⟨_, rfl, rfl, by decide⟩

/-- The first clause on an unconditional, the second on a conditional with `skip` already set. -/
theorem witness_OnlyConditionalsTouchSkip :
    (∃ t, exec (.set (.reg .a) (.reg .b)) (ready []) = .next t ∧
      (Instr.set (.reg .a) (.reg .b)).isConditional = false) ∧
    (∃ t, exec (.ife (.reg .a) (.reg .b)) (ready []).setSkip = .next t ∧ (ready []).setSkip.skip = true) :=
  ⟨⟨_, rfl, rfl⟩, ⟨_, rfl, rfl⟩⟩

/-- A store next to the address asked about, at the top of memory, and a push next to it. -/
theorem witness_StoresLandOnlyAtDestinationOrStackTop :
    (∃ t, exec (.set .peek (.reg .b)) (ready []) = .next t ∧
      (∀ a, (Instr.set .peek (.reg .b)).destination = some a → destRef a (ready []) ≠ .mem 0x0000) ∧
      (∀ a, Instr.set .peek (.reg .b) = .jsr a → (0x0000 : Word) ≠ (ready []).sp + a.spChange - 1)) ∧
    (∃ t, exec (.jsr (.reg .b)) (ready []) = .next t ∧
      (∀ a, (Instr.jsr (.reg .b)).destination = some a → destRef a (ready []) ≠ .mem 0xFFFF) ∧
      (∀ a, Instr.jsr (.reg .b) = .jsr a → (0xFFFF : Word) ≠ (ready []).sp + a.spChange - 1)) := by
  refine ⟨⟨_, rfl, fun a h => ?_, fun a h => (by cases h)⟩, ⟨_, rfl, fun a h => (by cases h), fun a h => ?_⟩⟩
  · cases h; decide
  · cases h; decide

theorem witness_RegistersChangeOnlyAsDestination :
    ∃ t, exec (.set (.reg .a) (.reg .b)) (ready []) = .next t ∧
      (Instr.set (.reg .a) (.reg .b)).destination ≠ some (.reg .b) :=
  ⟨_, rfl, by decide⟩

/-- At address 0 and at address 0xFFFF, where the borrow is. -/
theorem witness_HaltWordStepsToItself :
    ((ready [0x85C3]).Clean ∧ (ready [0x85C3]).skip = false ∧
      (ready [0x85C3]).readMem (ready [0x85C3]).pc = 0x85C3) ∧
    ((start 0 0 0xFFFF 0 [0x85C3]).Clean ∧ (start 0 0 0xFFFF 0 [0x85C3]).skip = false ∧
      (start 0 0 0xFFFF 0 [0x85C3]).readMem (start 0 0 0xFFFF 0 [0x85C3]).pc = 0x85C3 ∧
      (start 0 0 0xFFFF 0 [0x85C3]).pc = 0xFFFF) := by decide

/-- SET PUSH, A and then SET [0x1000], POP, which has its operand word two words on, past its own first word. -/
theorem witness_PushThenPopRestoresSp :
    ∃ t m u, m = t.setPc 2 ∧ (Operand.reg .a).spChange = 0 ∧ Operand.absolute.spChange = 0 ∧ Operand.absolute ≠ .sp ∧
      (∀ v, destRef .absolute m ≠ .imm v) ∧
      exec (.set .push (.reg .a)) (start 1 0 0 0 [0x01A1, 0x61E1, 0x1000]).advancePc = .next t ∧
      m.regs = t.regs ∧ m.sp = t.sp ∧ m.o = t.o ∧ m.mem = t.mem ∧ destRef .absolute m = .mem 0x1000 ∧
      exec (.set .absolute .pop) m = .next u :=
  ⟨_, _, _, rfl, rfl, rfl, by decide, fun _ h => (by cases h), rfl, rfl, rfl, rfl, rfl, by decide, rfl⟩

theorem witness_AddThenSubRestores :
    ∃ t u, Reg.a ≠ Reg.b ∧ exec (.add (.reg .a) (.reg .b)) (ready []) = .next t ∧
      exec (.sub (.reg .a) (.reg .b)) t = .next u :=
  ⟨_, _, by decide, rfl, rfl⟩

theorem witness_StepRunsTheDecodedInstruction :
    (ready [0x7DE1, 0x1000, 0x0020]).Clean ∧ (ready [0x7DE1, 0x1000, 0x0020]).skip = false ∧
    decode [(ready [0x7DE1, 0x1000, 0x0020]).readMem 0, (ready [0x7DE1, 0x1000, 0x0020]).readMem 1,
      (ready [0x7DE1, 0x1000, 0x0020]).readMem 2] =
      .ok { instr := .set .absolute .nextLit, operandWords := [0x1000, 0x0020], rest := [] } ∧
    (Instr.set .absolute .nextLit).wellFormed = true := by decide

/-- The cheapest step and the dearest one. -/
theorem witness_InstructionCost :
    ((ready [0x0000]).Clean ∧ (ready [0x0000]).skip = false ∧
      (stepped (ready [0x0000])).map State.cycles = some 1) ∧
    ((ready [0x79E6, 0x1000, 0x1001]).Clean ∧ (ready [0x79E6, 0x1000, 0x1001]).skip = false ∧
      (stepped (ready [0x79E6, 0x1000, 0x1001])).map State.cycles = some 5) := by decide

theorem witness_SkipPassesOneInstruction :
    (ready [0x7DE1]).setSkip.Clean ∧ (ready [0x7DE1]).setSkip.skip = true := by decide

/-- A word that is not zero, and the zero word. -/
theorem witness_FetchCycleStandsAlone :
    ((ready [0x8401]).Clean ∧ (ready [0x8401]).skip = false ∧ (ready [0x8401]).readMem (ready [0x8401]).pc ≠ 0) ∧
    ((ready []).Clean ∧ (ready []).skip = false ∧ (ready []).readMem (ready []).pc = 0) := by decide

/-- A state in BURN with `n` cycles owed by a failed IFE A, 0. -/
def burning (n : Nat) : State :=
  { (ready []).setSkip with
    inst := 0x800C, aRef := some (.reg .a), bRef := some (.imm 0), stage := .burn, burnLeft := n }

/-- One cycle owed, and more than one. -/
theorem witness_BurnCycleIsIdle :
    ((burning 1).stage = .burn ∧ (burning 1).burnLeft = 1) ∧
    ((burning 2).stage = .burn ∧ 1 < (burning 2).burnLeft) := by decide

/-- AND A, B in flight with its fetch done: its next cycle retires it and the zero word after it. -/
def andFetched : State := { ready [] with inst := 0x0409, stage := .s1 }
/-- The same, one operand resolved. -/
def andHalfResolved : State := { andFetched with aRef := some (.reg .a), stage := .s2 }
/-- The same, both operands resolved. -/
def andResolved : State := { andFetched with aRef := some (.reg .a), bRef := some (.reg .b), stage := .s3 }

/-- The invariant holds in every stage; the hypotheses of CycleCannotFail, StepCyclesCountsAndKeepsTheInvariant,
StepNeverStops, StepIsCyclesThenFlush, HostOperationsKeepTheInvariant and StepInstructionAnswers. -/
theorem witness_Inv :
    (ready [0x8401]).Inv ∧ (ready [0x8401]).setSkip.Inv ∧ andFetched.Inv ∧ andHalfResolved.Inv ∧ andResolved.Inv ∧
    (burning 1).Inv ∧ (ready []).stage = .s0 := by decide

/-- A state of two retirements in the next cycle, the case of the last clause. -/
theorem witness_RetireReportOfACycle :
    andFetched.Inv ∧ ∃ r, stepCycle andFetched = .ok r ∧ r.report.retired = 2 :=
  ⟨by decide, _, rfl, rfl⟩

theorem witness_CycleKeepsTheInvariant : andFetched.Inv ∧ ∃ r, stepCycle andFetched = .ok r := ⟨by decide, _, rfl⟩

theorem witness_StepKeepsTheInvariant :
    (ready [0x0409]).Inv ∧ ∃ t, step (ready [0x0409]) = .next t := ⟨by decide, _, rfl⟩

theorem witness_BackwardPackingIsFlushedForwardPacking : (ready [0x0409]).Inv ∧ (ready [0x0409]).Clean := by decide

/-- A block that runs over the top of memory, an index in it, and an address outside it. -/
theorem witness_LoadPlacesTheBlock :
    ([0x1111, 0x2222] : List Word).length ≤ 65536 ∧ 1 < ([0x1111, 0x2222] : List Word).length ∧
    (0xFFFF : Word) + BitVec.ofNat 16 1 = 0 ∧ ∀ k < 2, (1 : Word) ≠ 0xFFFF + BitVec.ofNat 16 k := by decide

theorem witness_HaltWordIsStuck :
    (stepUntilStuck 1 (ready [0x85C3])).toOption.map (fun r => r.map FacadeResult.elapsed) = some (some 2) := by decide

end Sys2Proof.Tests
end

/-! SUPPORT. The state and its invariant: what an execute stage can do to the state, what a whole instruction can do
to it, and that every stage of the sequencer, every cycle and every step keeps the invariant. -/

namespace Sys2Proof.Machine

/-! ### What an execute stage can do -/

/-- The state left by the execute stage of the basic instruction `i`, whose operand `a` was resolved to `ra`: a result
written through `ra`, alone or with O written after or before it, or a test that passed or failed. -/
inductive StageEffect (i : Instr) (a : Operand) (ra : OpRef) (s : State) : State → Prop
  | wrote (v : Word) (hdest : i.destination = some a) (hcond : i.isConditional = false) :
      StageEffect i a ra s (s.writeRef ra v)
  | wroteThenO (v ovf : Word) (hdest : i.destination = some a) (hcond : i.isConditional = false)
      (hovf : i.writesOverflow = true) : StageEffect i a ra s ((s.writeRef ra v).setO ovf)
  | wroteAfterO (v ovf : Word) (hdest : i.destination = some a) (hcond : i.isConditional = false)
      (hovf : i.writesOverflow = true) : StageEffect i a ra s ((s.setO ovf).writeRef ra v)
  | testPassed (hcond : i.isConditional = true) : StageEffect i a ra s s
  | testFailed (hcond : i.isConditional = true) : StageEffect i a ra s s.setSkip

theorem testStage_effect {i : Instr} (hcond : i.isConditional = true) (test : Word → Word → Bool) (a : Operand)
    (ra rb : OpRef) (s : State) : StageEffect i a ra s (testStage test ra rb s).state := by
  unfold testStage
  split
  · exact .testPassed hcond
  · exact .testFailed hcond

/-- The execute stage that an instruction's plan names has one of the listed effects. -/
theorem basic_stage_effect {i : Instr} {a b : Operand} {stage : OpRef → OpRef → State → Executed}
    (hp : planOf i = .basic a b stage) (ra rb : OpRef) (s : State) :
    StageEffect i a ra s (stage ra rb s).state := by
  cases i <;> simp only [planOf, Plan.basic.injEq, reduceCtorEq] at hp <;> obtain ⟨rfl, -, rfl⟩ := hp
  case set | and | bor | xor | mod => exact .wrote _ rfl rfl
  case add | sub | mul | div | shl => exact .wroteThenO _ _ rfl rfl rfl
  case shr => exact .wroteAfterO _ _ rfl rfl rfl
  case ife | ifn | ifg | ifb => exact testStage_effect rfl _ _ _ _ _

theorem planOf_eq_extended {i : Instr} {a : Operand} {stage : OpRef → State → Executed}
    (hp : planOf i = .extended a stage) : i = .jsr a ∧ stage = jsrStage := by
  cases i <;> simp only [planOf, Plan.extended.injEq, reduceCtorEq] at hp
  case jsr =>
    obtain ⟨rfl, rfl⟩ := hp
    exact ⟨rfl, rfl⟩

theorem planOf_eq_discard {i : Instr} (hp : planOf i = .discard) : ∃ xop a, i = .reserved xop a := by
  cases i <;> simp only [planOf, reduceCtorEq] at hp
  case reserved xop a => exact ⟨xop, a, rfl⟩

section StageFrame

variable {i : Instr} {a : Operand} {ra : OpRef} {s t : State}

/-- A general register changes only if the destination was resolved to it. -/
theorem StageEffect.getReg_eq (h : StageEffect i a ra s t) {r : Reg}
    (hr : i.destination = some a → ra ≠ .reg r) : t.getReg r = s.getReg r := by
  cases h with
  | wrote v hdest | wroteThenO v ovf hdest | wroteAfterO v ovf hdest => simp [writeRef_getReg _ v (hr hdest)]
  | testPassed => rfl
  | testFailed => rfl

/-- O changes only under an instruction that writes it, or if the destination was resolved to it. -/
theorem StageEffect.o_eq (h : StageEffect i a ra s t) (hw : i.writesOverflow = false)
    (ho : i.destination = some a → ra ≠ .o) : t.o = s.o := by
  cases h with
  | wrote v hdest => exact writeRef_o s v (ho hdest)
  | wroteThenO _ _ _ _ hovf | wroteAfterO _ _ _ _ hovf => simp [hw] at hovf
  | testPassed => rfl
  | testFailed => rfl

theorem StageEffect.skip_eq (h : StageEffect i a ra s t) (hc : i.isConditional = false) : t.skip = s.skip := by
  cases h with
  | wrote | wroteThenO | wroteAfterO => simp
  | testPassed hcond | testFailed hcond => simp [hc] at hcond

theorem StageEffect.skip_of_skip (h : StageEffect i a ra s t) (hs : s.skip = true) : t.skip = true := by
  cases h <;> simp [hs]

theorem StageEffect.cycles_eq (h : StageEffect i a ra s t) : t.cycles = s.cycles := by
  cases h <;> simp

theorem StageEffect.sameSequencer (h : StageEffect i a ra s t) : SameSequencer s t := by
  cases h <;> constructor <;> simp

theorem StageEffect.mem_wf (h : StageEffect i a ra s t) (hm : s.mem.wf = true) : t.mem.wf = true := by
  cases h with
  | wrote v | wroteThenO v => exact wf_writeRef _ _ v hm
  | wroteAfterO v ovf => exact wf_writeRef (s.setO ovf) ra v hm
  | testPassed => exact hm
  | testFailed => exact hm

end StageFrame

/-! ### JSR's execute stage -/

@[simp] theorem jsrStage_getReg (ra : OpRef) (s : State) (r : Reg) :
    (jsrStage ra s).state.getReg r = s.getReg r := rfl
@[simp] theorem jsrStage_o (ra : OpRef) (s : State) : (jsrStage ra s).state.o = s.o := rfl
@[simp] theorem jsrStage_skip (ra : OpRef) (s : State) : (jsrStage ra s).state.skip = s.skip := rfl
@[simp] theorem jsrStage_state_cycles (ra : OpRef) (s : State) : (jsrStage ra s).state.cycles = s.cycles := rfl
@[simp] theorem jsrStage_cycles (ra : OpRef) (s : State) : (jsrStage ra s).cycles = 1 := rfl

theorem jsrStage_sameSequencer (ra : OpRef) (s : State) : SameSequencer s (jsrStage ra s).state :=
  ⟨rfl, rfl, rfl, rfl, rfl, rfl⟩

theorem jsrStage_mem_wf (ra : OpRef) {s : State} (hm : s.mem.wf = true) : (jsrStage ra s).state.mem.wf = true :=
  wf_write _ _ _ hm

/-! ### What a whole instruction can do -/

theorem SameSequencer.trans {s t u : State} (h : SameSequencer s t) (h' : SameSequencer t u) : SameSequencer s u where
  inst := h'.inst.trans h.inst
  aRef := h'.aRef.trans h.aRef
  bRef := h'.bRef.trans h.bRef
  stage := h'.stage.trans h.stage
  burnLeft := h'.burnLeft.trans h.burnLeft
  fetchAddr := h'.fetchAddr.trans h.fetchAddr

theorem addCycles_sameSequencer (s : State) (n : Nat) : SameSequencer s (s.addCycles n) :=
  ⟨rfl, rfl, rfl, rfl, rfl, rfl⟩

theorem resolve_sameSequencer (c : Operand) (s : State) : SameSequencer s (resolve c s).state := by
  constructor <;> simp

theorem resolvedState_sameSequencer (a b : Operand) (s : State) : SameSequencer s (resolvedState a b s) :=
  (resolve_sameSequencer a s).trans (resolve_sameSequencer b _)

/-- What an instruction can do, by its plan: resolve two operands and execute with one of the listed effects, resolve
one operand and execute JSR, or nothing. -/
theorem exec_cases {i : Instr} {s t : State} (h : exec i s = .next t) :
    (∃ a b u n, StageEffect i a (destRef a s) (resolvedState a b s) u ∧ t = u.addCycles n) ∨
    (∃ a n, i = .jsr a ∧ t = (jsrStage (destRef a s) (resolve a s).state).state.addCycles n) ∨
    (∃ xop a, i = .reserved xop a ∧ t = s) := by
  rw [exec_eq_run] at h
  cases hp : planOf i with
  | basic a b stage =>
    rw [hp, Plan.run, runBasic_next] at h
    cases h
    exact .inl ⟨a, b, _, _, basic_stage_effect hp _ _ _, rfl⟩
  | extended a stage =>
    obtain ⟨rfl, rfl⟩ := planOf_eq_extended hp
    rw [hp, Plan.run, runExtended_next] at h
    cases h
    exact .inr (.inl ⟨a, _, rfl, rfl⟩)
  | discard =>
    obtain ⟨xop, a, rfl⟩ := planOf_eq_discard hp
    rw [hp, Plan.run] at h
    cases h
    exact .inr (.inr ⟨xop, a, rfl, rfl⟩)

theorem exec_sameSequencer {i : Instr} {s t : State} (h : exec i s = .next t) : SameSequencer s t := by
  obtain ⟨a, b, u, n, hu, rfl⟩ | ⟨a, n, rfl, rfl⟩ | ⟨xop, a, rfl, rfl⟩ := exec_cases h
  · exact ((resolvedState_sameSequencer a b s).trans hu.sameSequencer).trans (addCycles_sameSequencer u n)
  · exact ((resolve_sameSequencer a s).trans (jsrStage_sameSequencer _ _)).trans (addCycles_sameSequencer _ n)
  · exact ⟨rfl, rfl, rfl, rfl, rfl, rfl⟩

theorem exec_mem_wf {i : Instr} {s t : State} (h : exec i s = .next t) (hm : s.mem.wf = true) :
    t.mem.wf = true := by
  obtain ⟨a, b, u, n, hu, rfl⟩ | ⟨a, n, rfl, rfl⟩ | ⟨xop, a, rfl, rfl⟩ := exec_cases h
  · exact hu.mem_wf (by simpa [resolvedState] using hm)
  · exact jsrStage_mem_wf (destRef a s) (by simpa using hm)
  · exact hm

/-- Settles O21: the stage effects that write O are those of the six instructions, and the destination is resolved to
O only when it is O. -/
theorem onlyArithmeticAndShiftsWriteO : Obligations.OnlyArithmeticAndShiftsWriteO := by
  intro i s t h hw hd
  obtain ⟨a, b, u, n, hu, rfl⟩ | ⟨a, n, rfl, rfl⟩ | ⟨xop, a, rfl, rfl⟩ := exec_cases h
  · have ho : i.destination = some a → destRef a s ≠ .o := fun hdest href =>
      hd (by rw [hdest, resolve_ref_eq_o.mp href])
    simpa [resolvedState] using hu.o_eq hw ho
  · simp
  · rfl

/-- Settles O22: `skip` is written by a failed test only, and a failed test sets it. -/
theorem onlyConditionalsTouchSkip : Obligations.OnlyConditionalsTouchSkip := by
  intro i s t h
  obtain ⟨a, b, u, n, hu, rfl⟩ | ⟨a, n, rfl, rfl⟩ | ⟨xop, a, rfl, rfl⟩ := exec_cases h
  · exact ⟨fun hc => by simpa [resolvedState] using hu.skip_eq hc,
      fun hs => hu.skip_of_skip (by simpa [resolvedState] using hs)⟩
  · simp
  · exact ⟨fun _ => rfl, id⟩

/-- Settles O24: the one write of a general register is through the destination's reference, which is that register
only when the destination operand is. -/
theorem registersChangeOnlyAsDestination : Obligations.RegistersChangeOnlyAsDestination := by
  intro i s t r h hd
  obtain ⟨a, b, u, n, hu, rfl⟩ | ⟨a, n, rfl, rfl⟩ | ⟨xop, a, rfl, rfl⟩ := exec_cases h
  · have hr : i.destination = some a → destRef a s ≠ .reg r := fun hdest href =>
      hd (by rw [hdest, resolve_ref_eq_reg.mp href])
    simpa [resolvedState] using hu.getReg_eq hr
  · simp
  · rfl

/-! ### The invariant, stage by stage -/

section SequencerOk

variable {s : State}

theorem sequencerOk_s0 (h : s.stage = .s0) :
    s.sequencerOk = true ↔ s.inst = 0 ∧ s.aRef = none ∧ s.bRef = none ∧ s.burnLeft = 0 := by
  simp [State.sequencerOk, h, and_assoc]

theorem sequencerOk_s1 (h : s.stage = .s1) :
    s.sequencerOk = true ↔
      s.inst ≠ 0 ∧ s.aRef = none ∧ s.bRef = none ∧ s.burnLeft = 0 ∧ s.skip = false := by
  simp [State.sequencerOk, h, and_assoc]

theorem sequencerOk_s2 (h : s.stage = .s2) :
    s.sequencerOk = true ↔
      opField s.inst ≠ 0 ∧ s.aRef.isSome ∧ s.bRef = none ∧ s.burnLeft = 0 ∧ s.skip = false := by
  simp [State.sequencerOk, h, and_assoc]

theorem sequencerOk_s3 (h : s.stage = .s3) :
    s.sequencerOk = true ↔
      s.aRef.isSome ∧ s.burnLeft = 0 ∧ s.skip = false ∧
        (if opField s.inst = 0 then midField s.inst = jsrXop ∧ s.bRef = none else s.bRef.isSome) := by
  simp only [State.sequencerOk, h]
  split <;> simp [and_assoc]

theorem sequencerOk_burn (h : s.stage = .burn) :
    s.sequencerOk = true ↔ opField s.inst ≠ 0 ∧ s.aRef.isSome ∧ s.bRef.isSome ∧ s.burnLeft = 1 := by
  simp [State.sequencerOk, h, and_assoc]

/-- A clean state has nothing in flight that could break the invariant. -/
theorem State.Clean.inv (hc : s.Clean) (hm : s.mem.wf = true) : s.Inv := by
  obtain ⟨hinst, ha, hb, hstage, hburn⟩ := hc
  exact ⟨(sequencerOk_s0 hstage).mpr ⟨hinst, ha, hb, hburn⟩, hm⟩

theorem clean_of_s0 (hi : s.Inv) (hs : s.stage = .s0) : s.Clean := by
  obtain ⟨hinst, ha, hb, hburn⟩ := (sequencerOk_s0 hs).mp hi.1
  exact ⟨hinst, ha, hb, hs, hburn⟩

theorem retire_clean (s : State) : s.retire.Clean := ⟨rfl, rfl, rfl, rfl, rfl⟩

theorem SameSequencer.clean {t : State} (h : SameSequencer s t) (hc : s.Clean) : t.Clean := by
  obtain ⟨hinst, ha, hb, hstage, hburn⟩ := hc
  exact ⟨h.inst.trans hinst, h.aRef.trans ha, h.bRef.trans hb, h.stage.trans hstage, h.burnLeft.trans hburn⟩

/-- The cycle counter is no part of the invariant. -/
theorem addCycles_inv (h : s.Inv) (n : Nat) : (s.addCycles n).Inv := h

end SequencerOk

/-- Settles O37: the reset state is clean and its memory list is empty. -/
theorem resetMeetsTheInvariant : Obligations.ResetMeetsTheInvariant :=
  State.Clean.inv ⟨rfl, rfl, rfl, rfl, rfl⟩ reset_mem_wf

theorem reset_getReg (r : Reg) : State.reset.getReg r = 0 := by cases r <;> rfl

theorem reset_readMem (addr : Word) : State.reset.readMem addr = 0 := rfl

/-- Settles O44: reset ignores the state before it, so each value is one of the reset state's. -/
theorem resetValues : Obligations.ResetValues := by
  intro s r addr
  exact ⟨reset_getReg r, rfl, rfl, rfl, reset_readMem addr, ⟨rfl, rfl, rfl, rfl, rfl⟩, rfl, rfl⟩

/-! ### The execute stage of a cycle -/

/-- The execute stage changes no more of the sequencer than `skip`, keeps memory's canonical form, leaves the cycle
counter alone, and owes at most two cycles, two only under a basic instruction with both operands resolved. -/
structure ExecutedOk (s : State) (done : Executed) : Prop where
  sequencer : SameSequencer s done.state
  mem_wf : s.mem.wf = true → done.state.mem.wf = true
  counter : done.state.cycles = s.cycles
  owed_le : done.cycles ≤ 2
  owed_two : done.cycles = 2 → opField s.inst ≠ 0 ∧ s.aRef.isSome ∧ s.bRef.isSome

theorem opField_ne_zero_of_basic {w : Word} {a b : Operand} {stage : OpRef → OpRef → State → Executed}
    (hp : planOf (decodeWord w) = .basic a b stage) : opField w ≠ 0 := by
  intro hop
  obtain ⟨-, hjsr, hres⟩ := planOf_decodeWord w
  by_cases hmid : midField w = jsrXop
  · simp [hjsr hop hmid] at hp
  · simp [hres hop hmid] at hp

theorem executedOk_of_executeStage {s : State} {done : Executed} (h : executeStage s = .ok done) :
    ExecutedOk s done := by
  cases hp : planOf (decodeWord s.inst) with
  | basic a b stage =>
    cases ha : s.aRef with
    | none => simp [executeStage, hp, ha] at h
    | some ra =>
      cases hb : s.bRef with
      | none => simp [executeStage, hp, ha, hb] at h
      | some rb =>
        rw [executeStage_basic hp ha hb] at h
        cases h
        have heff := basic_stage_effect hp ra rb s
        exact {
          sequencer := heff.sameSequencer
          mem_wf := heff.mem_wf
          counter := heff.cycles_eq
          owed_le := (basic_stage_bounds hp ra rb s).1
          owed_two := fun _ => ⟨opField_ne_zero_of_basic hp, by simp [ha], by simp [hb]⟩ }
  | extended a stage =>
    obtain ⟨-, rfl⟩ := planOf_eq_extended hp
    cases ha : s.aRef with
    | none => simp [executeStage, hp, ha] at h
    | some ra =>
      rw [executeStage_extended hp ha] at h
      cases h
      exact {
        sequencer := jsrStage_sameSequencer ra s
        mem_wf := jsrStage_mem_wf ra
        counter := rfl
        owed_le := by simp
        owed_two := by simp }
  | discard =>
    simp only [executeStage, hp, Except.ok.injEq] at h
    subst h
    exact ⟨⟨rfl, rfl, rfl, rfl, rfl, rfl⟩, id, rfl, by simp, by simp⟩

/-- In S3 the invariant provides the references that the instruction's plan needs. -/
theorem executeStage_ok {s : State} (hi : s.Inv) (hs : s.stage = .s3) : ∃ done, executeStage s = .ok done := by
  obtain ⟨ha, -, -, hrefs⟩ := (sequencerOk_s3 hs).mp hi.1
  obtain ⟨hbasic, hjsr, -⟩ := planOf_decodeWord s.inst
  obtain ⟨ra, ha⟩ := Option.isSome_iff_exists.mp ha
  split at hrefs
  · exact ⟨_, executeStage_extended (hjsr ‹_› hrefs.1) ha⟩
  · obtain ⟨stage, hp⟩ := hbasic ‹_›
    obtain ⟨rb, hb⟩ := Option.isSome_iff_exists.mp hrefs
    exact ⟨_, executeStage_basic hp ha hb⟩

/-! ### Every stage keeps the invariant -/

/-- A stage's run leaves the invariant intact and the cycle counter alone. -/
structure StageRun.Sound (s : State) (r : StageRun) : Prop where
  inv : r.state.Inv
  counter : r.state.cycles = s.cycles

/-- A run that retires the instruction in flight is sound: it leaves a clean state. -/
theorem sound_of_retire {s t : State} (hm : t.mem.wf = true) (hc : t.cycles = s.cycles) (costed : Bool)
    (retired : Option Retirement) : StageRun.Sound s { state := t.retire, costed := costed, retired := retired } :=
  ⟨(retire_clean t).inv hm, hc⟩

theorem skipNext_clean {s : State} (hc : s.Clean) : s.skipNext.Clean := hc

theorem runS0_sound {s : State} (hi : s.Inv) (hs : s.stage = .s0) : (runS0 s).Sound s := by
  obtain ⟨hinst, ha, hb, hburn⟩ := (sequencerOk_s0 hs).mp hi.1
  cases hskip : s.skip with
  | true =>
    rw [runS0, if_pos hskip]
    exact ⟨(skipNext_clean (clean_of_s0 hi hs)).inv hi.2, rfl⟩
  | false =>
    rw [runS0, if_neg (by simp [hskip])]
    refine ⟨⟨?_, hi.2⟩, rfl⟩
    by_cases hw : s.wordAtPc = 0
    · exact (sequencerOk_s0 (if_pos hw)).mpr ⟨hw, ha, hb, hburn⟩
    · exact (sequencerOk_s1 (if_neg hw)).mpr ⟨hw, ha, hb, hburn, hskip⟩

theorem runS1_sound {s : State} (hi : s.Inv) (hs : s.stage = .s1) : (runS1 s).Sound s := by
  obtain ⟨-, -, hb, hburn, hskip⟩ := (sequencerOk_s1 hs).mp hi.1
  obtain ⟨hbasic, hjsr, hres⟩ := planOf_decodeWord s.inst
  have hm : ∀ c, (resolve c s).state.mem.wf = true := fun c => by simpa using hi.2
  by_cases hop : opField s.inst = 0
  · by_cases hmid : midField s.inst = jsrXop
    · simp only [runS1, hjsr hop hmid]
      exact ⟨⟨(sequencerOk_s3 rfl).mpr (by simp [hop, hmid, hb, hburn, hskip]), hm _⟩, by simp⟩
    · simp only [runS1, hres hop hmid]
      exact sound_of_retire hi.2 rfl _ _
  · obtain ⟨stage, hp⟩ := hbasic hop
    simp only [runS1, hp]
    exact ⟨⟨(sequencerOk_s2 rfl).mpr (by simpa [hb, hburn, hskip] using hop), hm _⟩, by simp⟩

theorem runS2_sound {s : State} (hi : s.Inv) (hs : s.stage = .s2) : (runS2 s).Sound s := by
  obtain ⟨hop, ha, -, hburn, hskip⟩ := (sequencerOk_s2 hs).mp hi.1
  exact ⟨⟨(sequencerOk_s3 rfl).mpr (by simpa [runS2, ha, hburn, hskip] using hop), by simpa [runS2] using hi.2⟩,
    by simp [runS2]⟩

theorem runS3_sound {s : State} (hi : s.Inv) (hs : s.stage = .s3) : ∃ r, runS3 s = .ok r ∧ r.Sound s := by
  obtain ⟨done, hdone⟩ := executeStage_ok hi hs
  have hok := executedOk_of_executeStage hdone
  have hm := hok.mem_wf hi.2
  simp only [runS3, hdone]
  match hn : done.cycles with
  | 0 => exact ⟨_, rfl, sound_of_retire hm hok.counter _ _⟩
  | 1 => exact ⟨_, rfl, sound_of_retire hm hok.counter _ _⟩
  | 2 =>
    obtain ⟨hop, ha, hb⟩ := hok.owed_two hn
    refine ⟨_, rfl, ⟨(sequencerOk_burn rfl).mpr ?_, hm⟩, hok.counter⟩
    simpa [hok.sequencer.inst, hok.sequencer.aRef, hok.sequencer.bRef, ha, hb] using hop
  | n + 3 => exact absurd hok.owed_le (by omega)

theorem runBurn_sound {s : State} (hi : s.Inv) (hs : s.stage = .burn) : (runBurn s).Sound s := by
  obtain ⟨-, -, -, hburn⟩ := (sequencerOk_burn hs).mp hi.1
  rw [runBurn, if_pos (by simp [hburn])]
  exact sound_of_retire hi.2 rfl _ _

/-- From a state of the invariant the pending stage answers and keeps it. -/
theorem runStage_sound {s : State} (hi : s.Inv) : ∃ r, runStage s = .ok r ∧ r.Sound s := by
  cases hs : s.stage with
  | s0 => exact ⟨_, by simp only [runStage, hs], runS0_sound hi hs⟩
  | s1 => exact ⟨_, by simp only [runStage, hs], runS1_sound hi hs⟩
  | s2 => exact ⟨_, by simp only [runStage, hs], runS2_sound hi hs⟩
  | s3 => simpa only [runStage, hs] using runS3_sound hi hs
  | burn => exact ⟨_, by simp only [runStage, hs], runBurn_sound hi hs⟩

/-! ### Every cycle keeps the invariant -/

/-- Any number of stages of a cycle answers, keeps the invariant and leaves the cycle counter alone. -/
theorem cycleLoop_sound (n : Nat) : ∀ (rep : Report) (s : State), s.Inv →
    ∃ r, cycleLoop n rep s = .ok r ∧ r.state.Inv ∧ r.state.cycles = s.cycles := by
  induction n with
  | zero => exact fun rep s hi => ⟨_, rfl, hi, rfl⟩
  | succ n ih =>
    intro rep s hi
    obtain ⟨q, hq, hinv, hcount⟩ := runStage_sound hi
    simp only [cycleLoop, hq]
    split
    · exact ⟨_, rfl, hinv, hcount⟩
    · obtain ⟨r, hr, hrinv, hrcount⟩ := ih (rep.add q.retired) q.state hinv
      exact ⟨r, hr, hrinv, hrcount.trans hcount⟩

theorem stepCycle_sound {s : State} (hi : s.Inv) :
    ∃ r, stepCycle s = .ok r ∧ r.state.Inv ∧ r.state.cycles = s.cycles + 1 :=
  cycleLoop_sound 4 Report.none (s.addCycles 1) (addCycles_inv hi 1)

/-- Settles O38: every stage that a cycle runs keeps the invariant. -/
theorem cycleKeepsTheInvariant : Obligations.CycleKeepsTheInvariant := by
  intro s r hi h
  obtain ⟨q, hq, hinv, -⟩ := stepCycle_sound hi
  rw [hq] at h
  cases h
  exact hinv

/-- Settles O34: every stage that a cycle runs finds the references it needs. -/
theorem cycleCannotFail : Obligations.CycleCannotFail := by
  intro s hi
  obtain ⟨r, hr, -, hcount⟩ := stepCycle_sound hi
  exact ⟨r, hr, hcount⟩

/-- Settles O36, by induction on the number of cycles. -/
theorem stepCyclesCountsAndKeepsTheInvariant : Obligations.StepCyclesCountsAndKeepsTheInvariant := by
  intro n
  induction n with
  | zero => exact fun s hi => ⟨s, rfl, hi, rfl⟩
  | succ n ih =>
    intro s hi
    obtain ⟨r, hr, hrinv, hrcount⟩ := stepCycle_sound hi
    obtain ⟨t, ht, htinv, htcount⟩ := ih r.state hrinv
    exact ⟨t, by simp only [stepCycles, hr, ht], htinv, by omega⟩

/-! ### Every step keeps the invariant -/

/-- An instruction run from a clean state leaves a clean state. -/
theorem exec_clean {i : Instr} {s t : State} (h : exec i s = .next t) (hc : s.Clean) : t.Clean :=
  (exec_sameSequencer h).clean hc

theorem pastFirstWord_clean {s : State} (hc : s.Clean) : s.pastFirstWord.Clean := hc

theorem finishFromExecute_clean {s t : State} (hm : s.mem.wf = true) (h : finishFromExecute s = .next t) :
    t.mem.wf = true ∧ t.Clean := by
  cases hdone : executeStage s with
  | error e => simp [finishFromExecute, hdone] at h
  | ok done =>
    simp only [finishFromExecute, hdone, Host.Outcome.next.injEq] at h
    subst h
    exact ⟨(executedOk_of_executeStage hdone).mem_wf hm, retire_clean done.state⟩

/-- A step ends an instruction or passes one over: memory keeps its canonical form and nothing is left in flight. -/
theorem step_clean {s t : State} (hi : s.Inv) (h : step s = .next t) : t.mem.wf = true ∧ t.Clean := by
  cases hs : s.stage <;> simp only [step, stepInstruction1, hs] at h
  case s0 =>
    have hc := clean_of_s0 hi hs
    split at h
    · cases h
      exact ⟨hi.2, skipNext_clean hc⟩
    · exact ⟨exec_mem_wf h hi.2, exec_clean h (pastFirstWord_clean hc)⟩
  case s1 => exact ⟨exec_mem_wf h hi.2, exec_clean h (retire_clean s)⟩
  case s2 => exact finishFromExecute_clean (by simpa using hi.2) h
  case s3 => exact finishFromExecute_clean hi.2 h
  case burn =>
    cases h
    exact ⟨hi.2, retire_clean s⟩

/-- Settles O39: a step leaves a clean state with memory in canonical form, and such a state meets the invariant. -/
theorem stepKeepsTheInvariant : Obligations.StepKeepsTheInvariant := by
  intro s t hi h
  obtain ⟨hm, hc⟩ := step_clean hi h
  exact ⟨hc.inv hm, hc⟩

end Sys2Proof.Machine

/-! SUPPORT. Memory, seen from outside the sequencer: which words an instruction stores to, what the host's `load` and
its placing of words at PC store and leave alone, and the instruction that a placed word makes the next step run. -/

namespace Sys2Proof.Machine

/-! ### The words an instruction stores to -/

/-- A memory word changes under an execute stage only if the destination was resolved to it. -/
theorem StageEffect.readMem_eq {i : Instr} {a : Operand} {ra : OpRef} {s t : State} (h : StageEffect i a ra s t)
    {addr : Word} (hr : i.destination = some a → ra ≠ .mem addr) : t.readMem addr = s.readMem addr := by
  cases h with
  | wrote v hdest | wroteThenO v ovf hdest | wroteAfterO v ovf hdest => simp [writeRef_readMem _ v (hr hdest)]
  | testPassed => rfl
  | testFailed => rfl

/-- JSR stores to the word below the stack pointer and to no other. -/
theorem jsrStage_readMem_ne (ra : OpRef) (s : State) {addr : Word} (h : addr ≠ s.sp - 1) :
    (jsrStage ra s).state.readMem addr = s.readMem addr :=
  readMem_writeMem_ne (s.setSp (s.sp - 1)) s.pc h

/-- Settles O23: a basic instruction stores through its destination's reference only, and resolving an operand moves SP
by the operand's SP change before JSR pushes below it. -/
theorem storesLandOnlyAtDestinationOrStackTop : Obligations.StoresLandOnlyAtDestinationOrStackTop := by
  intro i s t addr h hdest hjsr
  obtain ⟨a, b, u, n, hu, rfl⟩ | ⟨a, n, rfl, rfl⟩ | ⟨xop, a, rfl, rfl⟩ := exec_cases h
  · simpa [resolvedState] using hu.readMem_eq (hdest a)
  · have hpush : addr ≠ (resolve a s).state.sp - 1 := by simpa using hjsr a rfl
    simpa using jsrStage_readMem_ne (destRef a s) _ hpush
  · rfl

/-! ### The host's `load` -/

@[simp] theorem load_nil (s : State) (address : Word) : s.load address [] = s := rfl

theorem load_cons (s : State) (address w : Word) (ws : List Word) :
    s.load address (w :: ws) = (s.writeMem address w).load (address + 1) ws := rfl

/-- The address of word `k` of a block's tail is that of word `k + 1` of the block. -/
theorem tailAddress_eq (address : Word) (k : Nat) :
    address + 1 + BitVec.ofNat 16 k = address + BitVec.ofNat 16 (k + 1) := by
  bv_omega

/-- A block no longer than memory does not come back to its first address. -/
theorem address_ne_tailAddress (address : Word) {k : Nat} (hk : k + 1 < 65536) :
    address ≠ address + 1 + BitVec.ofNat 16 k := by
  bv_omega

theorem load_readMem_outside (ws : List Word) : ∀ (s : State) (address addr : Word),
    (∀ k < ws.length, addr ≠ address + BitVec.ofNat 16 k) → (s.load address ws).readMem addr = s.readMem addr := by
  induction ws with
  | nil => exact fun _ _ _ _ => rfl
  | cons w ws ih =>
    intro s address addr hout
    have hhead : addr ≠ address := by simpa using hout 0 (Nat.succ_pos _)
    have htail : ∀ k < ws.length, addr ≠ address + 1 + BitVec.ofNat 16 k := fun k hk => by
      rw [tailAddress_eq]
      exact hout (k + 1) (Nat.succ_lt_succ hk)
    rw [load_cons, ih _ _ _ htail, readMem_writeMem_ne s w hhead]

theorem load_readMem_inside (ws : List Word) : ∀ (s : State) (address : Word), ws.length ≤ 65536 →
    ∀ (k : Nat) (hk : k < ws.length), (s.load address ws).readMem (address + BitVec.ofNat 16 k) = ws[k] := by
  induction ws with
  | nil => exact fun _ _ _ k hk => absurd hk (Nat.not_lt_zero k)
  | cons w ws ih =>
    intro s address hlen k hk
    rw [List.length_cons] at hlen hk
    rw [load_cons]
    cases k with
    | zero =>
      have hout : ∀ j < ws.length, address ≠ address + 1 + BitVec.ofNat 16 j := fun j hj =>
        address_ne_tailAddress address (by omega)
      simpa using load_readMem_outside ws (s.writeMem address w) (address + 1) address hout
    | succ k =>
      rw [← tailAddress_eq]
      exact ih _ _ (by omega) k (by omega)

/-- A load changes nothing but memory. -/
theorem load_eq_with_mem (ws : List Word) : ∀ (s : State) (address : Word),
    { s.load address ws with mem := s.mem } = s := by
  induction ws with
  | nil => exact fun _ _ => rfl
  | cons w ws ih =>
    intro s address
    exact congrArg (fun t : State => { t with mem := s.mem }) (ih (s.writeMem address w) (address + 1))

/-- Settles O45: by induction on the block, each word stands where it was stored because no later word of the block
comes back to its address. -/
theorem loadPlacesTheBlock : Obligations.LoadPlacesTheBlock := fun s address words hlen =>
  ⟨load_readMem_inside words s address hlen, load_readMem_outside words s address, load_eq_with_mem words s address⟩

/-! ### The host's operations keep the invariant -/

theorem writeMem_inv {s : State} (h : s.Inv) (addr v : Word) : (s.writeMem addr v).Inv := by
  obtain ⟨hseq, hmem⟩ := h
  exact ⟨hseq, wf_write s.mem addr v hmem⟩

theorem load_inv (ws : List Word) : ∀ {s : State} (address : Word), s.Inv → (s.load address ws).Inv := by
  induction ws with
  | nil => exact fun _ h => h
  | cons w ws ih => exact fun address h => ih (address + 1) (writeMem_inv h address w)

/-- Settles O41: a reset is the reset state, and a load is a sequence of stores. -/
theorem hostOperationsKeepTheInvariant : Obligations.HostOperationsKeepTheInvariant := fun _ address words =>
  ⟨resetMeetsTheInvariant, load_inv words address⟩

/-! ### An instruction read from a list of words -/

/-- No instruction has more than two operand words (30_encoding.md R60). -/
theorem operandWords_le_two (i : Instr) : i.operandWords ≤ 2 := by
  cases i
  case jsr a => exact (Bool.toNat_le a.hasNextWord).trans one_le_two
  case reserved => exact Nat.zero_le 2
  all_goals exact Nat.add_le_add (Bool.toNat_le _) (Bool.toNat_le _)

/-- Three words always hold an instruction, the one their first word stands for. -/
theorem decode_three_words (w w1 w2 : Word) : ∃ d, decode [w, w1, w2] = .ok d ∧ d.instr = decodeWord w := by
  have henough : ¬ [w1, w2].length < (decodeWord w).operandWords := Nat.not_lt.mpr (operandWords_le_two _)
  exact ⟨_, if_neg henough, rfl⟩

/-- The table's image of an instruction is decoded by its first word. -/
theorem decodeTableWord_eq (nbits w : Nat) :
    decodeTableWord nbits w = some (decodeWord (BitVec.ofNat 16 (w % 2 ^ nbits))) := by
  obtain ⟨d, hd, hinstr⟩ := decode_three_words (BitVec.ofNat 16 (w % 2 ^ nbits))
    (BitVec.ofNat 16 ((w % 2 ^ nbits) >>> 16)) (BitVec.ofNat 16 ((w % 2 ^ nbits) >>> 32))
  simp only [decodeTableWord, hd, hinstr]

/-- The first word of a one-word image is the image's low 16 bits. -/
theorem ofNat_mod_sixteen (w : Nat) : BitVec.ofNat 16 (w % 2 ^ 16) = BitVec.ofNat 16 w :=
  BitVec.eq_of_toNat_eq (Nat.mod_mod w (2 ^ 16))

/-! ### Words placed at PC -/

section PlaceAtPc

variable (s : State) (w0 w1 w2 : Word)

@[simp] theorem placeAtPc_pc : (s.placeAtPc w0 w1 w2).pc = s.pc := rfl
@[simp] theorem placeAtPc_skip : (s.placeAtPc w0 w1 w2).skip = false := rfl
@[simp] theorem placeAtPc_stage : (s.placeAtPc w0 w1 w2).stage = .s0 := rfl

/-- Placing three words is a load of them at PC, with nothing in flight and no skip pending (20_memory.md R53). -/
theorem placeAtPc_eq_load : s.placeAtPc w0 w1 w2 = { s.retire with skip := false }.load s.pc [w0, w1, w2] := by
  simp only [load_cons, load_nil, add_assoc]
  rfl

theorem placeAtPc_readMem_placed (k : Nat) (hk : k < [w0, w1, w2].length) :
    (s.placeAtPc w0 w1 w2).readMem (s.pc + BitVec.ofNat 16 k) = [w0, w1, w2][k] := by
  rw [placeAtPc_eq_load]
  exact load_readMem_inside [w0, w1, w2] _ s.pc (by simp) k hk

theorem placeAtPc_readMem_pc : (s.placeAtPc w0 w1 w2).readMem s.pc = w0 := by
  simpa using placeAtPc_readMem_placed s w0 w1 w2 0 (by simp)

theorem placeAtPc_readMem_ne {addr : Word} (h0 : addr ≠ s.pc) (h1 : addr ≠ s.pc + 1) (h2 : addr ≠ s.pc + 2) :
    (s.placeAtPc w0 w1 w2).readMem addr = s.readMem addr := by
  rw [placeAtPc_eq_load]
  refine load_readMem_outside [w0, w1, w2] _ s.pc addr fun k hk => ?_
  match k, hk with
  | 0, _ => simpa using h0
  | 1, _ => exact h1
  | 2, _ => exact h2

end PlaceAtPc

/-- From S0 with no skip pending, a step runs the instruction that the word at PC stands for (46_sequencer.md R188). -/
theorem step_of_s0 {s : State} (hstage : s.stage = .s0) (hskip : s.skip = false) :
    step s = exec (decodeWord (s.readMem s.pc)) s.pastFirstWord := by
  simp only [step, stepInstruction1, hstage, hskip, State.wordAtPc, Bool.false_eq_true, if_false]

/-- A one-word image is placed as its word and two zeros. -/
theorem withFetchWord_sixteen (s : State) (w : Nat) : s.withFetchWord 16 w = s.placeAtPc (BitVec.ofNat 16 w) 0 0 := by
  have hlt : w % 2 ^ 16 < 2 ^ 16 := Nat.mod_lt _ (by decide)
  have hsecond : (w % 2 ^ 16) >>> 16 = 0 := Nat.shiftRight_eq_zero _ _ hlt
  have hthird : (w % 2 ^ 16) >>> 32 = 0 := Nat.shiftRight_eq_zero _ _ (hlt.trans (by decide))
  simp only [State.withFetchWord, State.placeTableWord, ofNat_mod_sixteen, hsecond, hthird]
  rfl

/-- Settles O29: the placing leaves S0 with no skip pending, so the step fetches the word placed at PC. -/
theorem placedWordIsTheNextInstruction : Obligations.PlacedWordIsTheNextInstruction := by
  intro s w
  rw [withFetchWord_sixteen, decodeTableWord_eq, ofNat_mod_sixteen]
  set word : Word := BitVec.ofNat 16 w
  have hstep : step (s.placeAtPc word 0 0) = exec (decodeWord word) (s.placeAtPc word 0 0).pastFirstWord := by
    rw [step_of_s0 (placeAtPc_stage ..) (placeAtPc_skip ..), placeAtPc_pc, placeAtPc_readMem_pc]
  exact ⟨rfl, rfl, placeAtPc_readMem_pc s _ _ _, placeAtPc_readMem_placed s _ _ _ 1 (by simp),
    placeAtPc_readMem_placed s _ _ _ 2 (by simp), fun addr => placeAtPc_readMem_ne s _ _ _,
    _, hstep, rfl, rfl, rfl, fun _ => rfl, rfl, rfl⟩

end Sys2Proof.Machine

/-! SUPPORT. The encoding: operand codes and forms, the first word and its fields, that decoding and encoding are
inverse to each other, and the length of a first word. -/

namespace Sys2Proof

/-! ### Operand codes and forms -/

theorem Reg.index_lt (r : Reg) : r.index < 8 := by cases r <;> decide

theorem Reg.ofIndex_index (r : Reg) : Reg.ofIndex r.index = r := by cases r <;> rfl

section OperandCode

variable (r : Reg)

theorem Operand.toNat_code_reg : (Operand.reg r).code.toNat = r.index := by cases r <;> rfl
theorem Operand.toNat_code_regInd : (Operand.regInd r).code.toNat = 0x08 + r.index := by cases r <;> rfl
theorem Operand.toNat_code_indexed : (Operand.indexed r).code.toNat = 0x10 + r.index := by cases r <;> rfl

end OperandCode

theorem Operand.toNat_code_smallLit (v : BitVec 5) : (Operand.smallLit v).code.toNat = 0x20 + v.toNat := by
  have hv : v.toNat < 32 := v.isLt
  exact Nat.mod_eq_of_lt (by omega)

/-- The form of a form's own code is that form (30_encoding.md R64). -/
theorem Operand.ofCode_code (c : Operand) : Operand.ofCode c.code = c := by
  cases c with
  | reg r => cases r <;> rfl
  | regInd r => cases r <;> rfl
  | indexed r => cases r <;> rfl
  | smallLit v =>
    have hlit : ∀ v : BitVec 5, Operand.ofCode (Operand.smallLit v).code = .smallLit v := by decide
    exact hlit v
  | _ => rfl

/-- No two of the 64 codes share a form. -/
theorem Operand.code_ofCode : ∀ code : BitVec 6, (Operand.ofCode code).code = code := by decide

/-- The codes that take a word are those whose form does (30_encoding.md R65). -/
theorem takesWord_eq_hasNextWord (code : BitVec 6) : takesWord code = (Operand.ofCode code).hasNextWord := by
  rw [← takesWord_code, Operand.code_ofCode]

/-! ### The first word and its fields -/

theorem midField_extendedWord (xop : BitVec 6) (a : Operand) : midField (extendedWord xop a) = xop := by
  unfold midField extendedWord
  generalize a.code = x
  ext k hk
  interval_cases k <;> simp

/-- A word is its three fields put side by side (30_encoding.md R61). -/
theorem basicWord_fields (w : Word) :
    basicWord (opField w) (Operand.ofCode (midField w)) (Operand.ofCode (highField w)) = w := by
  simp only [basicWord, Operand.code_ofCode, opField, midField, highField]
  ext k hk
  interval_cases k <;> simp

/-- With `op` 0 the other two fields are the whole word (30_encoding.md R62). -/
theorem extendedWord_fields {w : Word} (hop : opField w = 0) :
    extendedWord (midField w) (Operand.ofCode (highField w)) = w := by
  have hw := basicWord_fields w
  rw [hop] at hw
  simpa [basicWord, extendedWord, Operand.code_ofCode] using hw

theorem basicWord_of_opField {w : Word} {n : Nat} (hop : (opField w).toNat = n) :
    basicWord (BitVec.ofNat 4 n) (Operand.ofCode (midField w)) (Operand.ofCode (highField w)) = w := by
  rw [← hop, BitVec.ofNat_toNat, BitVec.setWidth_eq, basicWord_fields]

/-! ### Decoding a first word -/

/-- An extended word is JSR or reserved (30_encoding.md R70, R71). -/
theorem decodeWord_extended {w : Word} (hop : opField w = 0) :
    decodeWord w = if midField w = jsrXop then .jsr (Operand.ofCode (highField w))
      else .reserved (midField w) (Operand.ofCode (highField w)) := by
  simp [decodeWord, hop]

theorem decodeWord_reserved {w : Word} (hop : opField w = 0) (hmid : midField w ≠ jsrXop) :
    decodeWord w = .reserved (midField w) (Operand.ofCode (highField w)) := by
  rw [decodeWord_extended hop, if_neg hmid]

/-- The first word of a well-formed instruction decodes to it. -/
theorem decodeWord_encodeWord {i : Instr} (hwf : i.wellFormed = true) : decodeWord (encodeWord i) = i := by
  cases i
  case jsr a =>
    simp [encodeWord, decodeWord_extended, opField_extendedWord, midField_extendedWord, highField_extendedWord,
      Operand.ofCode_code]
  case reserved xop a =>
    have hxop : xop ≠ jsrXop := by simpa [Instr.wellFormed] using hwf
    simp [encodeWord, decodeWord_extended, opField_extendedWord, midField_extendedWord, highField_extendedWord,
      Operand.ofCode_code, hxop]
  all_goals
    simp only [encodeWord, decodeWord, opField_basicWord, midField_basicWord, highField_basicWord, Operand.ofCode_code]
    rfl

/-- An instruction that resolves its operands can be encoded. -/
theorem wellFormed_of_planOf {i : Instr} (hp : Machine.planOf i ≠ .discard) : i.wellFormed = true := by
  cases i
  case reserved => exact absurd rfl hp
  all_goals rfl

/-- A first word resolves its operands unless it is a reserved extended word (30_encoding.md R71). -/
theorem planOf_decodeWord_ne_discard {w : Word} (h : ¬ (opField w = 0 ∧ midField w ≠ jsrXop)) :
    Machine.planOf (decodeWord w) ≠ .discard := by
  obtain ⟨hbasic, hjsr, -⟩ := Machine.planOf_decodeWord w
  by_cases hop : opField w = 0
  · have hmid : midField w = jsrXop := by simpa [hop] using h
    simp [hjsr hop hmid]
  · obtain ⟨stage, hstage⟩ := hbasic hop
    simp [hstage]

theorem decodeWord_wellFormed (w : Word) : (decodeWord w).wellFormed = true := by
  by_cases h : opField w = 0 ∧ midField w ≠ jsrXop
  · obtain ⟨hop, hmid⟩ := h
    simpa [decodeWord_reserved hop hmid, Instr.wellFormed] using hmid
  · exact wellFormed_of_planOf (planOf_decodeWord_ne_discard h)

/-- Decoding drops no bit of a first word. -/
theorem encodeWord_decodeWord (w : Word) : encodeWord (decodeWord w) = w := by
  by_cases hop : opField w = 0
  · rw [decodeWord_extended hop]
    split
    · next hmid => simpa [encodeWord, hmid] using extendedWord_fields hop
    · exact extendedWord_fields hop
  · have hpos : 0 < (opField w).toNat := Nat.pos_of_ne_zero fun h => hop (BitVec.eq_of_toNat_eq h)
    have hlt : (opField w).toNat < 16 := (opField w).isLt
    unfold decodeWord
    generalize hn : (opField w).toNat = n at hpos hlt ⊢
    interval_cases n <;> exact basicWord_of_opField hn

/-- Settles O1: the first word decodes to the instruction, whose operand words are then as many as were put there. -/
theorem decodeOfEncode : Obligations.DecodeOfEncode := by
  intro i operandWords rest h
  obtain ⟨hwf, hlen⟩ : i.wellFormed = true ∧ operandWords.length = i.operandWords := by
    simpa [Instr.wellFormedWith] using h
  simp [encode, decode, decodeWord_encodeWord hwf, ← hlen]

/-- Settles O2: the three fields of a word are kept by decoding and put back by encoding. -/
theorem everyFirstWordIsItsInstructionsEncoding : Obligations.EveryFirstWordIsItsInstructionsEncoding := fun w =>
  ⟨decodeWord_wellFormed w, encodeWord_decodeWord w⟩

/-- Settles O3, by running the decoder on the five words. -/
theorem workedWordsDecodeAsTheSpecSays : Obligations.WorkedWordsDecodeAsTheSpecSays := by
  unfold Obligations.WorkedWordsDecodeAsTheSpecSays
  decide

/-! ### The length of a first word -/

/-- The law of `Len`, of every instruction at once (30_encoding.md R66). -/
theorem lenOfWord_encodeWord (i : Instr) : lenOfWord (encodeWord i) = 1 + i.codedOperandWords := by
  cases i
  case jsr a => exact lenOfWord_extendedWord _ a
  case reserved xop a => exact lenOfWord_extendedWord xop a
  all_goals exact lenOfWord_basicWord _ _ _ (by decide)

theorem lenOfWord_eq (w : Word) : lenOfWord w = 1 + (decodeWord w).codedOperandWords := by
  rw [← lenOfWord_encodeWord, encodeWord_decodeWord]

/-- No instruction's operand codes call for more than two next words (30_encoding.md R60). -/
theorem codedOperandWords_le_two (i : Instr) : i.codedOperandWords ≤ 2 := by
  cases i
  case jsr a => exact (Bool.toNat_le a.hasNextWord).trans one_le_two
  case reserved xop a => exact (Bool.toNat_le a.hasNextWord).trans one_le_two
  all_goals exact Nat.add_le_add (Bool.toNat_le _) (Bool.toNat_le _)

/-- An instruction that resolves its operands takes the words their codes call for. -/
theorem codedOperandWords_eq {i : Instr} (hp : Machine.planOf i ≠ .discard) : i.codedOperandWords = i.operandWords := by
  cases i
  case reserved => exact absurd rfl hp
  all_goals rfl

/-- Settles O4: the length counts the words that the codes call for, which only a reserved word does not take. -/
theorem lengthCountsOperandWords : Obligations.LengthCountsOperandWords := by
  intro w
  have hle := codedOperandWords_le_two (decodeWord w)
  rw [lenOfWord_eq]
  refine ⟨by omega, ?_⟩
  split
  · next h =>
    obtain ⟨hop, hmid⟩ := h
    rw [decodeWord_reserved hop hmid]
    rfl
  · next h => rw [codedOperandWords_eq (planOf_decodeWord_ne_discard h)]

end Sys2Proof

/-! SUPPORT. The operand code table, what a whole instruction that writes a result and O or that tests its operands
leaves, and the values that arithmetic, shifts and tests compute. -/

namespace Sys2Proof.Machine

/-! ### The operand code table -/

theorem add_pcChange_ofCode (code : BitVec 6) (pc : Word) :
    pc + (Operand.ofCode code).pcChange = if takesWord code then pc + 1 else pc := by
  rw [takesWord_eq_hasNextWord, Operand.pcChange]
  cases (Operand.ofCode code).hasNextWord <;> simp

/-- POP's code and PUSH's are the only ones that move SP (40_operands.md R96, R98). -/
theorem spChange_ofCode : ∀ code : BitVec 6, (Operand.ofCode code).spChange =
    if code.toNat = 0x18 then 1 else if code.toNat = 0x1A then -1 else 0 := by decide

theorem resolve_ofCode_state (code : BitVec 6) (s : State) :
    (resolve (Operand.ofCode code) s).state = { s with
      pc := if takesWord code then s.pc + 1 else s.pc
      sp := if code.toNat = 0x18 then s.sp + 1 else if code.toNat = 0x1A then s.sp - 1 else s.sp } := by
  have hsp : s.sp + (Operand.ofCode code).spChange =
      if code.toNat = 0x18 then s.sp + 1 else if code.toNat = 0x1A then s.sp - 1 else s.sp := by
    rw [spChange_ofCode]
    split_ifs <;> simp [BitVec.sub_eq_add_neg]
  rw [resolve_state, add_pcChange_ofCode, hsp]

/-- The table of 40_operands.md section 4: what an operand code refers to (R93 to R104). -/
def refOfCode (c : Nat) (s : State) : OpRef :=
  let w := s.readMem s.pc
  if c ≤ 0x07 then .reg (Reg.ofIndex c)
  else if c ≤ 0x0F then .mem (s.getReg (Reg.ofIndex (c - 0x08)))
  else if c ≤ 0x17 then .mem (BitVec.ofNat 16 (w.toNat + (s.getReg (Reg.ofIndex (c - 0x10))).toNat))
  else if c = 0x18 then .mem s.sp
  else if c = 0x19 then .mem s.sp
  else if c = 0x1A then .mem (s.sp - 1)
  else if c = 0x1B then .sp
  else if c = 0x1C then .pc
  else if c = 0x1D then .o
  else if c = 0x1E then .mem w
  else if c = 0x1F then .imm w
  else .imm (BitVec.ofNat 16 (c - 0x20))

/-- Each form refers to what the table says of its code. -/
theorem resolve_ref_eq_refOfCode (c : Operand) (s : State) : (resolve c s).ref = refOfCode c.code.toNat s := by
  cases c with
  | reg r =>
    have hr := r.index_lt
    rw [Operand.toNat_code_reg, refOfCode, if_pos (by omega), r.ofIndex_index]
    rfl
  | regInd r =>
    have hr := r.index_lt
    rw [Operand.toNat_code_regInd, refOfCode, if_neg (by omega), if_pos (by omega), Nat.add_sub_cancel_left,
      r.ofIndex_index]
    rfl
  | indexed r =>
    have hr := r.index_lt
    rw [Operand.toNat_code_indexed, refOfCode, if_neg (by omega), if_neg (by omega), if_pos (by omega),
      Nat.add_sub_cancel_left, r.ofIndex_index, BitVec.ofNat_add, BitVec.ofNat_toNat, BitVec.ofNat_toNat,
      BitVec.setWidth_eq, BitVec.setWidth_eq]
    rfl
  | smallLit v =>
    rw [Operand.toNat_code_smallLit, refOfCode]
    repeat rw [if_neg (by omega)]
    rw [Nat.add_sub_cancel_left, BitVec.ofNat_toNat]
    rfl
  | _ => rfl

/-- Settles O5: every code is the code of its form, and each form refers to what the table says of its code. -/
theorem operandCodeTable : Obligations.OperandCodeTable := by
  intro code s
  refine ⟨?_, ?_, resolve_ofCode_state code s⟩
  · have href := resolve_ref_eq_refOfCode (Operand.ofCode code) s
    rwa [Operand.code_ofCode] at href
  · rw [resolve_costed, takesWord_eq_hasNextWord]

/-! ### What an execute stage leaves, seen from the state before the operands -/

theorem resolvedState_wroteThrough (a b : Operand) (v : Word) (s : State) :
    WroteThrough a b v s ((resolvedState a b s).writeRef (destRef a s) v) where
  destination hlit _ := readRef_writeRef_same _ _ v hlit
  registers r hr := by simp [writeRef_getReg _ v hr, resolvedState]
  memory addr haddr := by simp [writeRef_readMem _ v haddr, resolvedState]
  pc hpc := by simp [writeRef_pc _ v hpc, resolvedState]
  sp hsp := by simp [writeRef_sp _ v hsp, resolvedState]
  skip := by simp [resolvedState]
  sequencer := by constructor <;> simp [resolvedState]

theorem readRef_setO_ne (s : State) {ref : OpRef} (v : Word) (h : ref ≠ .o) : (s.setO v).readRef ref = s.readRef ref :=
  readRef_writeRef_ne s (ref := .o) v h

theorem readRef_addCycles (s : State) (ref : OpRef) (n : Nat) : (s.addCycles n).readRef ref = s.readRef ref := by
  cases ref <;> rfl

theorem setO_sameSequencer (s : State) (v : Word) : SameSequencer s (s.setO v) := ⟨rfl, rfl, rfl, rfl, rfl, rfl⟩

section WroteThrough

variable {a b : Operand} {v : Word} {s t : State}

/-- `WroteThrough` says nothing of O, so a write of O keeps it. -/
theorem WroteThrough.setO (h : WroteThrough a b v s t) (ovf : Word) : WroteThrough a b v s (t.setO ovf) where
  destination hlit ho := (readRef_setO_ne t ovf ho).trans (h.destination hlit ho)
  registers := h.registers
  memory := h.memory
  pc := h.pc
  sp := h.sp
  skip := h.skip
  sequencer := h.sequencer.trans (setO_sameSequencer t ovf)

/-- `WroteThrough` says nothing of the cycle counter. -/
theorem WroteThrough.addCycles (h : WroteThrough a b v s t) (n : Nat) : WroteThrough a b v s (t.addCycles n) where
  destination hlit ho := (readRef_addCycles t _ n).trans (h.destination hlit ho)
  registers := h.registers
  memory := h.memory
  pc := h.pc
  sp := h.sp
  skip := h.skip
  sequencer := h.sequencer.trans (addCycles_sameSequencer t n)

end WroteThrough

/-- A result written through the destination and then O, with the cycles counted. -/
theorem wroteAndOverflow_of_resolvedState (a b : Operand) (v ovf : Word) (n : Nat) (s : State) :
    WroteAndOverflow a b v ovf n s
      ((((resolvedState a b s).writeRef (destRef a s) v).setO ovf).addCycles
        (a.resolveCycles + b.resolveCycles + n)) where
  through := ((resolvedState_wroteThrough a b v s).setO ovf).addCycles _
  overflow := rfl
  cycles := by simp [resolvedState]

/-- A write of O before the write through a reference stands unless the reference is O (42_arithmetic.md R135). -/
theorem setO_writeRef (s : State) (ref : OpRef) (v ovf : Word) :
    (s.setO ovf).writeRef ref v = (s.writeRef ref v).setO (if ref = .o then v else ovf) := by
  cases ref <;> rfl

/-! ### Whole instructions, by their execute stage -/

section ByStage

variable {i : Instr} {a b : Operand}

/-- An instruction with a basic plan is its execute stage on the resolved operands, plus the cycle count. -/
theorem exec_of_basic {stage : OpRef → OpRef → State → Executed} (hp : planOf i = .basic a b stage) (s : State) :
    exec i s =
      let done := stage (destRef a s) (resolve b (resolve a s).state).ref (resolvedState a b s)
      .next (done.state.addCycles (a.resolveCycles + b.resolveCycles + done.cycles)) := by
  rw [exec_eq_run, hp, Plan.run, runBasic_next]

/-- ADD, SUB, MUL, DIV and SHL: the result, and O as the value computed for it whatever the destination. -/
theorem exec_of_writeThenO {result overflow : Word → Word → Word} {n : Nat}
    (hp : planOf i = .basic a b (writeThenO result overflow n)) (s : State) :
    ∃ t, exec i s = .next t ∧ WroteAndOverflow a b (result (valueA a b s) (valueB a b s))
      (overflow (valueA a b s) (valueB a b s)) n s t :=
  ⟨_, exec_of_basic hp s, wroteAndOverflow_of_resolvedState a b _ _ n s⟩

/-- SHR: O as the value computed for it, unless it is the destination. -/
theorem exec_of_shrStage (hp : planOf i = .basic a b shrStage) (s : State) :
    ∃ t, exec i s = .next t ∧ WroteAndOverflow a b (shrResult (valueA a b s) (valueB a b s))
      (if destRef a s = .o then shrResult (valueA a b s) (valueB a b s)
        else shrOverflow (valueA a b s) (valueB a b s)) 1 s t := by
  refine ⟨_, exec_of_basic hp s, ?_⟩
  simp only [shrStage, setO_writeRef]
  exact wroteAndOverflow_of_resolvedState a b _ _ 1 s

/-- The conditionals: both operands take effect, and a failed test sets `skip` at the cost of one more cycle. -/
theorem exec_of_testStage {test : Word → Word → Bool} (hp : planOf i = .basic a b (testStage test)) (s : State) :
    exec i s = .next (if test (valueA a b s) (valueB a b s) then afterReading a b s.skip 1 s
      else afterReading a b true 2 s) := by
  rw [exec_of_basic hp]
  simp only [testStage, ← valueA.eq_def, ← valueB.eq_def]
  split <;> simp [resolvedState_eq, afterReading, State.addCycles, State.setSkip]

end ByStage

/-! ### The results of ADD, SUB, MUL and DIV -/

theorem addResult_eq (x y : Word) : addResult x y = x + y := by
  simp [addResult, narrow, BitVec.ofNat_add]

theorem subResult_eq (x y : Word) : subResult x y = x - y := by
  unfold subResult narrow
  bv_omega

theorem mulResult_eq (x y : Word) : mulResult x y = x * y := by
  simp [mulResult, narrow, BitVec.ofNat_mul]

/-- Both halves of the 32-bit product of two words lie below 2^32 (42_arithmetic.md R137). -/
theorem toNat_product (x y : Word) : (x.setWidth 32 * y.setWidth 32).toNat = x.toNat * y.toNat := by
  have hx : x.toNat < 2 ^ 16 := x.isLt
  have hy : y.toNat < 2 ^ 16 := y.isLt
  have hxy : x.toNat * y.toNat < 2 ^ 32 := by nlinarith
  rw [BitVec.toNat_mul, BitVec.toNat_setWidth_of_le (by decide), BitVec.toNat_setWidth_of_le (by decide),
    Nat.mod_eq_of_lt hxy]

theorem mulOverflow_eq (x y : Word) : mulOverflow x y = (x.setWidth 32 * y.setWidth 32).extractLsb' 16 16 := by
  rw [mulOverflow, ← toNat_product]
  rfl

theorem divResult_eq (x y : Word) : divResult x y = if y = 0 then 0 else x / y := by
  simp [divResult, narrow, ← BitVec.toNat_udiv]

/-- A word shifted left by 16 fits in 32 bits (42_arithmetic.md R137). -/
theorem toNat_dividend (x : Word) : (x.setWidth 32 <<< 16).toNat = x.toNat <<< 16 := by
  have hx : x.toNat < 2 ^ 16 := x.isLt
  rw [BitVec.toNat_shiftLeft, BitVec.toNat_setWidth_of_le (by decide), Nat.shiftLeft_eq, Nat.mod_eq_of_lt (by omega)]

theorem divOverflow_eq (x y : Word) : divOverflow x y =
    if y = 0 then (0 : Word) else ((x.setWidth 32 <<< 16) / y.setWidth 32).setWidth 16 := by
  have hq : narrow ((x.toNat <<< 16) / y.toNat) = ((x.setWidth 32 <<< 16) / y.setWidth 32).setWidth 16 := by
    rw [narrow, ← BitVec.ofNat_toNat, BitVec.toNat_udiv, toNat_dividend, BitVec.toNat_setWidth_of_le (by decide)]
  rw [divOverflow, hq]

/-! ### The results of the shifts -/

theorem narrow_shiftLeft (x : Word) (k : Nat) : narrow (x.toNat <<< k) = x <<< k := by
  apply BitVec.eq_of_toNat_eq
  simp [narrow]

theorem narrow_shiftRight (x : Word) (k : Nat) : narrow (x.toNat >>> k) = x >>> k := by
  rw [narrow, ← BitVec.toNat_ushiftRight, BitVec.ofNat_toNat, BitVec.setWidth_eq]

/-- A shift left and then right by no more leaves a shift left by the difference. -/
theorem narrow_shiftLeft_shiftRight_of_le (x : Word) {m n : Nat} (h : n ≤ m) :
    narrow ((x.toNat <<< m) >>> n) = x <<< (m - n) := by
  rw [← Nat.shiftLeft_sub x.toNat h, narrow_shiftLeft]

/-- A shift left and then right by no less leaves a shift right by the difference. -/
theorem narrow_shiftLeft_shiftRight_of_ge (x : Word) {m n : Nat} (h : m ≤ n) :
    narrow ((x.toNat <<< m) >>> n) = x >>> (n - m) := by
  obtain ⟨k, rfl⟩ := Nat.exists_eq_add_of_le h
  rw [Nat.shiftRight_add, ← Nat.shiftLeft_sub _ le_rfl, Nat.sub_self, Nat.shiftLeft_zero, Nat.add_sub_cancel_left,
    narrow_shiftRight]

/-- A count of 16 or more shifts every bit of a word out (43_shifts.md R142). -/
theorem shiftLeft_of_ge_sixteen (x : Word) {k : Nat} (h : 16 ≤ k) : x <<< k = 0 := BitVec.shiftLeft_eq_zero h

theorem ushiftRight_of_ge_sixteen (x : Word) {k : Nat} (h : 16 ≤ k) : x >>> k = 0 := BitVec.ushiftRight_eq_zero h

theorem shlResult_eq (x y : Word) : shlResult x y = if y.toNat ≤ 15 then x <<< y.toNat else 0 := by
  rw [shlResult, narrow_shiftLeft]
  split
  · rfl
  · exact shiftLeft_of_ge_sixteen x (by omega)

theorem shrResult_eq (x y : Word) : shrResult x y = if y.toNat ≤ 15 then x >>> y.toNat else 0 := by
  rw [shrResult, narrow_shiftRight]
  split
  · rfl
  · exact ushiftRight_of_ge_sixteen x (by omega)

/-- The rows of SHL's table for O (43_shifts.md R142): the bits shifted out, as long as any of them are. -/
theorem shlOverflow_eq (x y : Word) : shlOverflow x y =
    if y.toNat = 0 then 0 else if y.toNat ≤ 15 then x >>> (16 - y.toNat)
    else if y.toNat ≤ 31 then x <<< (y.toNat - 16) else 0 := by
  unfold shlOverflow
  split_ifs with hzero hsmall hlarge
  · rw [narrow_shiftLeft_shiftRight_of_ge x (by omega), ushiftRight_of_ge_sixteen x (by omega)]
  · rw [narrow_shiftLeft_shiftRight_of_ge x (by omega)]
  · rw [narrow_shiftLeft_shiftRight_of_le x (by omega)]
  · rw [narrow_shiftLeft_shiftRight_of_le x (by omega), shiftLeft_of_ge_sixteen x (by omega)]

/-- The rows of SHR's table for O (43_shifts.md R142): the bits shifted out, left-aligned. -/
theorem shrOverflow_eq (x y : Word) : shrOverflow x y =
    if y.toNat = 0 then 0 else if y.toNat ≤ 15 then x <<< (16 - y.toNat)
    else if y.toNat ≤ 31 then x >>> (y.toNat - 16) else 0 := by
  unfold shrOverflow
  split_ifs with hzero hsmall hlarge
  · rw [narrow_shiftLeft_shiftRight_of_le x (by omega), shiftLeft_of_ge_sixteen x (by omega)]
  · rw [narrow_shiftLeft_shiftRight_of_le x (by omega)]
  · rw [narrow_shiftLeft_shiftRight_of_ge x (by omega)]
  · rw [narrow_shiftLeft_shiftRight_of_ge x (by omega), ushiftRight_of_ge_sixteen x (by omega)]

/-! ### The conditionals' tests -/

theorem ifeTest_iff (x y : Word) : ifeTest x y = true ↔ x = y := beq_iff_eq

theorem ifnTest_iff (x y : Word) : ifnTest x y = true ↔ x ≠ y := bne_iff_ne

theorem ifgTest_iff (x y : Word) : ifgTest x y = true ↔ x > y := decide_eq_true_iff

/-- Two words have a common 1 bit exactly when some bit is 1 in both (44_conditionals.md R154). -/
theorem ifbTest_iff (x y : Word) : ifbTest x y = true ↔ ∃ k : Fin 16, x.getLsbD k = true ∧ y.getLsbD k = true := by
  rw [ifbTest, bne_iff_ne]
  constructor
  · contrapose!
    intro hnone
    refine BitVec.eq_of_getLsbD_eq fun k hk => ?_
    simpa using hnone ⟨k, hk⟩
  · rintro ⟨k, hx, hy⟩ hzero
    have hbit : (x &&& y).getLsbD k = true := by simp [hx, hy]
    simp [hzero] at hbit

/-! ### An instruction's encoding and its effect -/

section ByPlan

variable {i : Instr} {a b : Operand} {s : State}

theorem decodes_and_writesThenO {result overflow : Word → Word → Word} {n : Nat} {v ovf : Word}
    (hwf : i.wellFormed = true) (hp : planOf i = .basic a b (writeThenO result overflow n))
    (hv : result (valueA a b s) (valueB a b s) = v) (hovf : overflow (valueA a b s) (valueB a b s) = ovf) :
    decodeWord (encodeWord i) = i ∧ ∃ t, exec i s = .next t ∧ WroteAndOverflow a b v ovf n s t := by
  subst hv hovf
  exact ⟨decodeWord_encodeWord hwf, exec_of_writeThenO hp s⟩

theorem exec_of_testStage_iff {test : Word → Word → Bool} {p : Prop} [Decidable p]
    (hp : planOf i = .basic a b (testStage test)) (htest : test (valueA a b s) (valueB a b s) = true ↔ p) :
    exec i s = .next (if p then afterReading a b s.skip 1 s else afterReading a b true 2 s) := by
  rw [exec_of_testStage hp, if_congr htest rfl rfl]

end ByPlan

end Sys2Proof.Machine

namespace Sys2Proof

open Machine

/-! ### The statements about arithmetic, shifts, conditionals and reserved words -/

/-- Settles O9: the result is the wrapped sum, and O the carry as the model computes it. -/
theorem addResult : Obligations.AddResult := fun a b _ =>
  decodes_and_writesThenO (i := .add a b) rfl rfl (addResult_eq _ _) rfl

/-- Settles O10: the result is the wrapped difference, and O the borrow marker as the model computes it. -/
theorem subResult : Obligations.SubResult := fun a b _ =>
  decodes_and_writesThenO (i := .sub a b) rfl rfl (subResult_eq _ _) rfl

/-- Settles O11: the natural product of two words is their 32-bit product. -/
theorem mulResult : Obligations.MulResult := fun a b _ =>
  decodes_and_writesThenO (i := .mul a b) rfl rfl (mulResult_eq _ _) (mulOverflow_eq _ _)

/-- Settles O12: the natural quotients are those of the words and of the 32-bit dividend. -/
theorem divResult : Obligations.DivResult := fun a b _ =>
  decodes_and_writesThenO (i := .div a b) rfl rfl (divResult_eq _ _) (divOverflow_eq _ _)

/-- Settles O14: the natural number shifted by the whole count, narrowed, gives the rows of the table. -/
theorem shlResult : Obligations.ShlResult := fun a b _ =>
  decodes_and_writesThenO (i := .shl a b) rfl rfl (shlResult_eq _ _) (shlOverflow_eq _ _)

/-- Settles O15: SHR writes O first, so with O as destination the shifted value stands. -/
theorem shrResult : Obligations.ShrResult := by
  intro a b s
  refine ⟨decodeWord_encodeWord (i := .shr a b) rfl, ?_⟩
  simpa only [shrResult_eq, shrOverflow_eq] using exec_of_shrStage (i := .shr a b) rfl s

/-- Settles O17: each conditional runs its test on the two values. -/
theorem conditionalsSetSkipWhenTheTestFails : Obligations.ConditionalsSetSkipWhenTheTestFails := fun a b _ =>
  ⟨decodeWord_encodeWord (i := .ife a b) rfl, exec_of_testStage_iff rfl (ifeTest_iff _ _),
    decodeWord_encodeWord (i := .ifn a b) rfl, exec_of_testStage_iff rfl (ifnTest_iff _ _),
    decodeWord_encodeWord (i := .ifg a b) rfl, exec_of_testStage_iff rfl (ifgTest_iff _ _),
    decodeWord_encodeWord (i := .ifb a b) rfl, exec_of_testStage_iff rfl (ifbTest_iff _ _)⟩

/-- Settles O19: a word with `op` 0 and another `xop` than JSR's decodes to a reserved instruction, whose plan is to do
nothing. -/
theorem reservedWordIsOneWordNoOp : Obligations.ReservedWordIsOneWordNoOp := by
  refine ⟨fun _ _ _ => rfl, fun s hclean hskip hop hmid => ?_⟩
  obtain ⟨-, -, -, hstage, -⟩ := hclean
  rw [step_of_s0 hstage hskip, decodeWord_reserved hop hmid]
  rfl

/-- Settles O28: three words always hold the instruction of their first word. -/
theorem stepRunsTheDecodedInstruction : Obligations.StepRunsTheDecodedInstruction := by
  intro s d hclean hskip hdecode _
  obtain ⟨-, -, -, hstage, -⟩ := hclean
  obtain ⟨d', hd', hinstr⟩ := decode_three_words (s.readMem s.pc) (s.readMem (s.pc + 1)) (s.readMem (s.pc + 2))
  obtain rfl : d' = d := Except.ok.inj (hd'.symm.trans hdecode)
  rw [step_of_s0 hstage hskip, hinstr]
  rfl

end Sys2Proof

/-! SUPPORT. Operands inside whole instructions: PC and SP read at the execute stage, a literal as destination, a push
followed by a pop, and the cycles that an instruction and its operands cost. -/

namespace Sys2Proof.Machine

/-! ### PC and SP as operands -/

theorem resolvedState_pc (a b : Operand) (s : State) : (resolvedState a b s).pc = s.pc + a.pcChange + b.pcChange := by
  rw [resolvedState_eq]

theorem resolvedState_sp (a b : Operand) (s : State) : (resolvedState a b s).sp = s.sp + a.spChange + b.spChange := by
  rw [resolvedState_eq]

/-- Settles O6: PC and SP are read in the state that both resolutions leave, and as operands they move neither. -/
theorem pcAndSpOperandsAreReadAtExecute : Obligations.PcAndSpOperandsAreReadAtExecute := by
  intro a b s
  have hpc : Operand.pc.pcChange = 0 := rfl
  have hsp : Operand.sp.spChange = 0 := rfl
  exact ⟨(resolvedState_pc .pc b s).trans (by rw [hpc, add_zero]),
    (resolvedState_pc a .pc s).trans (by rw [hpc, add_zero]),
    (resolvedState_sp .sp b s).trans (by rw [hsp, add_zero]),
    (resolvedState_sp a .sp s).trans (by rw [hsp, add_zero])⟩

/-! ### A literal as destination -/

/-- An instruction with a destination and a source has a basic plan on these two. -/
theorem planOf_of_destination_source {i : Instr} {a b : Operand} (ha : i.destination = some a)
    (hb : i.source = some b) : ∃ stage, planOf i = .basic a b stage := by
  cases i <;> simp only [Instr.destination, Instr.source, Option.some.injEq, reduceCtorEq] at ha hb
  all_goals
    subst ha hb
    exact ⟨_, rfl⟩

theorem isConditional_of_destination {i : Instr} {a : Operand} (ha : i.destination = some a) :
    i.isConditional = false := by
  cases i
  case ife | ifn | ifg | ifb => simp [Instr.destination] at ha
  all_goals rfl

/-- Through a literal the result is lost: a writing instruction's execute stage is left with its write of O, if it
has one (41_set_logic.md R125). -/
theorem StageEffect.of_literal {i : Instr} {a : Operand} {lit : Word} {s t : State}
    (h : StageEffect i a (.imm lit) s t) (hc : i.isConditional = false) :
    ∃ ovf, t = s.setO ovf ∧ (i.writesOverflow = false → ovf = s.o) := by
  cases h with
  | wrote => exact ⟨s.o, rfl, fun _ => rfl⟩
  | wroteThenO v ovf _ _ hovf | wroteAfterO v ovf _ _ hovf => exact ⟨ovf, rfl, fun hw => by simp [hw] at hovf⟩
  | testPassed hcond | testFailed hcond => simp [hc] at hcond

/-- Settles O20: what remains of the instruction is its operands' effects on PC and SP, and its write of O. -/
theorem literalDestinationIsDiscarded : Obligations.LiteralDestinationIsDiscarded := by
  rintro i a b s hdest hsource ⟨lit, hlit⟩
  obtain ⟨stage, hp⟩ := planOf_of_destination_source hdest hsource
  have heffect := basic_stage_effect hp (destRef a s) (resolve b (resolve a s).state).ref (resolvedState a b s)
  rw [hlit] at heffect
  obtain ⟨ovf, hstate, hovf⟩ := heffect.of_literal (isConditional_of_destination hdest)
  refine ⟨_, exec_of_basic hp s, ?_⟩
  simp only [hlit, hstate]
  refine ⟨fun r => ?_, fun addr => ?_, resolvedState_pc a b s, resolvedState_sp a b s, ?_, fun hw => ?_⟩
  · simp [resolvedState]
  · simp [resolvedState]
  · simp [resolvedState]
  · simpa [resolvedState] using hovf hw

/-! ### A push and then a pop -/

/-- SET writes the value of `b` through `a` and owes no execute cycle (41_set_logic.md R121). -/
theorem exec_set (a b : Operand) (s : State) :
    exec (.set a b) s = .next (((resolvedState a b s).writeRef (destRef a s) (valueB a b s)).addCycles
      (a.resolveCycles + b.resolveCycles)) := exec_of_basic (stage := setStage) rfl s

/-- After `SET PUSH, x` the value of `x` stands at the new stack top, one below the old. -/
theorem exec_set_push {x : Operand} {s t : State} (hx : x.spChange = 0) (h : exec (.set .push x) s = .next t) :
    t.sp = s.sp - 1 ∧ t.readMem t.sp = valueB .push x s := by
  have hdest : destRef .push s = .mem (s.sp - 1) := rfl
  have hpush : Operand.push.spChange = -1 := rfl
  rw [exec_set, hdest] at h
  cases h
  have hsp : (resolvedState .push x s).sp = s.sp - 1 := by
    rw [resolvedState_sp, hx, hpush, add_zero, BitVec.sub_eq_add_neg]
  refine ⟨hsp, ?_⟩
  simp [State.writeRef, hsp]

/-- `SET d, POP` raises SP by one and delivers the word at the old stack top. -/
theorem exec_set_pop {d : Operand} {m u : State} (hd : d.spChange = 0) (hsp : d ≠ .sp)
    (hlit : ∀ v, destRef d m ≠ .imm v) (h : exec (.set d .pop) m = .next u) :
    u.sp = m.sp + 1 ∧ u.readRef (destRef d m) = m.readMem m.sp := by
  have hpop : Operand.pop.spChange = 1 := rfl
  have hdest : destRef d m ≠ .sp := fun href => hsp (resolve_ref_eq_sp.mp href)
  have hvalue : valueB d .pop m = m.readMem m.sp := by
    calc valueB d .pop m = (resolvedState d .pop m).readMem (resolve d m).state.sp := rfl
      _ = m.readMem m.sp := by simp [resolvedState, hd]
  rw [exec_set, hvalue] at h
  cases h
  constructor
  · rw [addCycles_sp, writeRef_sp _ _ hdest, resolvedState_sp, hd, hpop, add_zero]
  · rw [readRef_addCycles, readRef_writeRef_same _ _ _ hlit]

/-- Settles O26: the second instruction pops from where the first one pushed, so SP comes back and so does the
value. -/
theorem pushThenPopRestoresSp : Obligations.PushThenPopRestoresSp := by
  intro x d s t m u hx hd hdsp hlit hpush _ hsp _ hmem hpop
  obtain ⟨htsp, htop⟩ := exec_set_push hx hpush
  obtain ⟨husp, hread⟩ := exec_set_pop hd hdsp hlit hpop
  constructor
  · rw [husp, hsp, htsp, BitVec.sub_add_cancel]
  · rw [hread, hsp, State.readMem, hmem]
    exact htop

/-! ### The cost of an instruction -/

/-- A test owes one execute cycle, and one more when it has set `skip` (46_sequencer.md R184). -/
theorem testStage_cycles (test : Word → Word → Bool) (ra rb : OpRef) {s : State} (hskip : s.skip = false) :
    (testStage test ra rb s).cycles = if !(testStage test ra rb s).state.skip then 1 else 2 := by
  unfold testStage
  split <;> simp [hskip]

/-- With no skip pending before it, an execute stage owes the cycles of the table of 46_sequencer.md R184. -/
theorem basic_stage_cycles {i : Instr} {a b : Operand} {stage : OpRef → OpRef → State → Executed}
    (hp : planOf i = .basic a b stage) (ra rb : OpRef) {s : State} (hskip : s.skip = false) :
    (stage ra rb s).cycles = executeCycles (!(stage ra rb s).state.skip) i := by
  cases i <;> simp only [planOf, Plan.basic.injEq, reduceCtorEq] at hp <;> obtain ⟨-, -, rfl⟩ := hp
  case ife | ifn | ifg | ifb => exact testStage_cycles _ ra rb hskip
  all_goals rfl

/-- A basic instruction consumes the next words of its two operands. -/
theorem operandWords_of_basic {i : Instr} {a b : Operand} {stage : OpRef → OpRef → State → Executed}
    (hp : planOf i = .basic a b stage) : i.operandWords = a.resolveCycles + b.resolveCycles := by
  cases i <;> simp only [planOf, Plan.basic.injEq, reduceCtorEq] at hp <;> obtain ⟨rfl, rfl, -⟩ := hp <;> rfl

theorem executeCycles_le_two (passed : Bool) (i : Instr) : executeCycles passed i ≤ 2 := by
  cases i
  case ife | ifn | ifg | ifb =>
    simp only [executeCycles]
    split <;> decide
  all_goals simp [executeCycles]

/-- The cost of an instruction after its fetch (46_sequencer.md R185). -/
theorem exec_cycles {i : Instr} {s t : State} (hskip : s.skip = false) (h : exec i s = .next t) :
    t.cycles = s.cycles + (i.operandWords + executeCycles (!t.skip) i) := by
  cases hp : planOf i with
  | basic a b stage =>
    rw [exec_of_basic hp] at h
    cases h
    have hskip' : (resolvedState a b s).skip = false := by simpa [resolvedState] using hskip
    have howed := basic_stage_cycles hp (destRef a s) (resolve b (resolve a s).state).ref hskip'
    have hcounter := (basic_stage_effect hp (destRef a s) (resolve b (resolve a s).state).ref
      (resolvedState a b s)).cycles_eq
    rw [addCycles_cycles, addCycles_skip, hcounter, howed, operandWords_of_basic hp]
    simp [resolvedState]
  | extended a stage =>
    obtain ⟨rfl, rfl⟩ := planOf_eq_extended hp
    rw [exec_eq_run, hp, Plan.run, runExtended_next] at h
    cases h
    simp [executeCycles, Instr.operandWords, Operand.resolveCycles]
  | discard =>
    obtain ⟨xop, a, rfl⟩ := planOf_eq_discard hp
    cases h
    rfl

/-- Settles O30: the fetch costs one cycle, and the rest is the cost of the decoded instruction, at most two operand
words and two execute cycles. -/
theorem instructionCost : Obligations.InstructionCost := by
  intro s hclean hskip
  obtain ⟨-, -, -, hstage, -⟩ := hclean
  obtain ⟨t, ht⟩ := exec_next (decodeWord (s.readMem s.pc)) s.pastFirstWord
  have hcost := exec_cycles (s := s.pastFirstWord) hskip ht
  have hfetch : s.pastFirstWord.cycles = s.cycles + 1 := rfl
  have hwords := operandWords_le_two (decodeWord (s.readMem s.pc))
  have hexecute := executeCycles_le_two (!t.skip) (decodeWord (s.readMem s.pc))
  exact ⟨t, (step_of_s0 hstage hskip).trans ht, by omega, by omega, by omega⟩

end Sys2Proof.Machine

/-! SUPPORT. What a whole instruction that writes its result and nothing else leaves: SET, AND, BOR, XOR. -/

namespace Sys2Proof.Machine

/-- A write through a reference reaches O only when the reference is O. -/
theorem writeRef_o_eq (s : State) (ref : OpRef) (v : Word) : (s.writeRef ref v).o = if ref = .o then v else s.o := by
  split
  next href => rw [href]; rfl
  next href => exact writeRef_o s v href

/-- A result written through the destination and nothing else, with the cycles counted. -/
theorem wroteOnly_of_resolvedState (a b : Operand) (v : Word) (n : Nat) (s : State) :
    WroteOnly a b v n s
      (((resolvedState a b s).writeRef (destRef a s) v).addCycles (a.resolveCycles + b.resolveCycles + n)) where
  through := (resolvedState_wroteThrough a b v s).addCycles _
  overflow := by rw [addCycles_o, writeRef_o_eq, resolvedState_eq]
  cycles := by simp [resolvedState]

/-- The encoding and the whole effect of an instruction whose execute stage is a `writeStage`. -/
theorem decodes_and_writesOnly (result : Word → Word → Word) {i : Instr} {a b : Operand} {s : State}
    (hwf : i.wellFormed = true) (hp : planOf i = .basic a b (writeStage result)) :
    decodeWord (encodeWord i) = i ∧
      ∃ t, exec i s = .next t ∧ WroteOnly a b (result (valueA a b s) (valueB a b s)) 0 s t :=
  ⟨decodeWord_encodeWord hwf, _, exec_of_basic hp s, wroteOnly_of_resolvedState a b _ 0 s⟩

end Sys2Proof.Machine

namespace Sys2Proof

open Machine

/-- Settles O7: SET's execute stage writes the value of `b`. -/
theorem setResult : Obligations.SetResult := fun a b _ =>
  decodes_and_writesOnly (i := .set a b) (fun _ y => y) rfl rfl

/-- Settles O8: each of the three writes its bitwise result of the two values. -/
theorem bitwiseResults : Obligations.BitwiseResults := fun a b _ =>
  ⟨decodes_and_writesOnly (i := .and a b) (fun x y => x &&& y) rfl rfl,
    decodes_and_writesOnly (i := .bor a b) (fun x y => x ||| y) rfl rfl,
    decodes_and_writesOnly (i := .xor a b) (fun x y => x ^^^ y) rfl rfl⟩

end Sys2Proof

/-! SUPPORT. Arithmetic instructions: MOD's effect, division by zero, the halt word, and a subtraction that undoes an
addition. -/

namespace Sys2Proof.Machine

/-! ### The remainder -/

theorem modResult_eq (x y : Word) : modResult x y = if y = 0 then 0 else x % y := by
  simp [modResult, narrow, ← BitVec.toNat_umod]

/-- MOD: the remainder through the destination and nothing else, in two execute cycles (42_arithmetic.md R134). -/
theorem exec_mod_writesOnly (a b : Operand) (s : State) :
    ∃ t, exec (.mod a b) s = .next t ∧ WroteOnly a b (modResult (valueA a b s) (valueB a b s)) 2 s t :=
  ⟨_, exec_of_basic (stage := modStage) rfl s, wroteOnly_of_resolvedState a b _ 2 s⟩

/-! ### The halt word -/

/-- `SUB PC, v` for a small literal lowers PC and counts one execute cycle (42_arithmetic.md R131). -/
theorem exec_sub_pc_smallLit (v : BitVec 5) (s : State) :
    exec (.sub .pc (.smallLit v)) s =
      .next (((s.setPc (s.pc - v.setWidth 16)).setO (subOverflow s.pc (v.setWidth 16))).addCycles 1) := by
  rw [← subResult_eq]
  exact exec_of_basic (i := .sub .pc (.smallLit v)) rfl s

/-- The successor of an address is below 1 only when it has wrapped to 0. -/
theorem subOverflow_succ_one (x : Word) : subOverflow (x + 1) 1 = if x = 0xFFFF then 0xFFFF else 0 := by
  have hborrow : (x + 1).toNat < (1 : Word).toNat ↔ x = 0xFFFF := by bv_omega
  exact if_congr hborrow rfl rfl

end Sys2Proof.Machine

namespace Sys2Proof

open Machine

/-- Settles O13: MOD's execute stage writes the natural remainder, which is that of the words, and leaves O alone. -/
theorem modResult : Obligations.ModResult := by
  intro a b s
  refine ⟨decodeWord_encodeWord (i := .mod a b) rfl, ?_⟩
  rw [← modResult_eq]
  exact exec_mod_writesOnly a b s

/-- Settles O16: the divisor 0 in what DIV and MOD do for every divisor. -/
theorem divisionByZeroGivesZero : Obligations.DivisionByZeroGivesZero := by
  intro a b s hzero
  obtain ⟨-, hdiv⟩ := divResult a b s
  obtain ⟨-, hmod⟩ := modResult a b s
  rw [if_pos hzero, if_pos hzero] at hdiv
  rw [if_pos hzero] at hmod
  exact ⟨hdiv, hmod⟩

/-- Settles O25: the word is `SUB PC, 1`, which takes back the one word that the fetch moved PC on. -/
theorem haltWordStepsToItself : Obligations.HaltWordStepsToItself := by
  intro s hclean hskip hword
  obtain ⟨-, -, -, hstage, -⟩ := hclean
  have hdecode : decodeWord 0x85C3 = .sub .pc (.smallLit 1) := by decide
  have hpc : s.pastFirstWord.pc = s.pc + 1 := rfl
  have hone : (1 : BitVec 5).setWidth 16 = (1 : Word) := rfl
  rw [step_of_s0 hstage hskip, hword, hdecode, exec_sub_pc_smallLit, hpc, hone, BitVec.add_sub_cancel,
    subOverflow_succ_one]
  rfl

/-- Settles O27: SUB takes back from the first register what ADD put there, since ADD leaves the second alone. -/
theorem addThenSubRestores : Obligations.AddThenSubRestores := by
  intro ra rb s t u hne hadd hsub
  obtain ⟨-, t', hadd', haddEffect⟩ := addResult (.reg ra) (.reg rb) s
  obtain rfl : t' = t := Host.Outcome.next.inj (hadd'.symm.trans hadd)
  obtain ⟨-, u', hsub', hsubEffect⟩ := subResult (.reg ra) (.reg rb) t'
  obtain rfl : u' = u := Host.Outcome.next.inj (hsub'.symm.trans hsub)
  have hfirst : t'.getReg ra = s.getReg ra + s.getReg rb := haddEffect.through.destination nofun nofun
  have hsecond : t'.getReg rb = s.getReg rb :=
    haddEffect.through.registers rb fun href => hne (OpRef.reg.inj href)
  calc u'.getReg ra = t'.getReg ra - t'.getReg rb := hsubEffect.through.destination nofun nofun
    _ = s.getReg ra + s.getReg rb - s.getReg rb := by rw [hfirst, hsecond]
    _ = s.getReg ra := BitVec.add_sub_cancel ..

end Sys2Proof

/-! SUPPORT. JSR's push and jump, and the halt word on the clock: what the stages of a cycle answer, the cycle that
fetches, the cycle that runs a basic instruction with nothing more to fetch, and the façade's loop around them. -/

namespace Sys2Proof.Machine

/-! ### JSR -/

@[simp] theorem jsrStage_pc (ra : OpRef) (s : State) : (jsrStage ra s).state.pc = s.readRef ra := rfl
@[simp] theorem jsrStage_sp (ra : OpRef) (s : State) : (jsrStage ra s).state.sp = s.sp - 1 := rfl

/-- JSR leaves PC, past all of its words, at the new stack top. -/
theorem jsrStage_readMem_top (ra : OpRef) (s : State) : (jsrStage ra s).state.readMem (s.sp - 1) = s.pc :=
  readMem_writeMem_same (s.setSp (s.sp - 1)) (s.sp - 1) s.pc

/-- JSR is its execute stage on the resolved operand, in one execute cycle (45_jsr_control.md R160). -/
theorem exec_jsr (a : Operand) (s : State) :
    exec (.jsr a) s =
      .next ((jsrStage (resolve a s).ref (resolve a s).state).state.addCycles (a.resolveCycles + 1)) :=
  runExtended_next jsrStage a s

/-! ### Stages of a cycle -/

section Cycle

variable {s : State} {a b : Operand} {stage : OpRef → OpRef → State → Executed} {r : StageRun}

/-- A costed stage ends the cycle. -/
theorem cycleLoop_costed (n : Nat) (rep : Report) (h : runStage s = .ok r) (hc : r.costed = true) :
    cycleLoop (n + 1) rep s = .ok { state := r.state, report := rep.add r.retired } := by
  simp only [cycleLoop, h, hc, if_true]

/-- After a free stage the cycle goes on. -/
theorem cycleLoop_free (n : Nat) (rep : Report) (h : runStage s = .ok r) (hc : r.costed = false) :
    cycleLoop (n + 1) rep s = cycleLoop n (rep.add r.retired) r.state := by
  simp only [cycleLoop, h, hc, Bool.false_eq_true, if_false]

/-- The state in which S1 leaves a basic instruction: its first operand is resolved. -/
def State.afterS1 (a : Operand) (s : State) : State :=
  { (resolve a s).state with aRef := some (destRef a s), stage := .s2 }

/-- The state in which S2 leaves a basic instruction: both operands are resolved. -/
def State.afterS2 (a b : Operand) (s : State) : State :=
  { resolvedState a b s with
    aRef := some (destRef a s), bRef := some (resolve b (resolve a s).state).ref, stage := .s3 }

theorem runStage_s1_basic (hs : s.stage = .s1) (hp : planOf (decodeWord s.inst) = .basic a b stage) :
    runStage s = .ok { state := s.afterS1 a, costed := a.hasNextWord, retired := none } := by
  simp only [runStage, hs, runS1, hp, resolve_costed, State.afterS1, destRef]

/-- The operands of a basic plan are those that the word's two codes name. -/
theorem ofCode_highField_of_basic {w : Word} (hp : planOf (decodeWord w) = .basic a b stage) :
    Operand.ofCode (highField w) = b := by
  obtain ⟨hbasic, -, -⟩ := planOf_decodeWord w
  obtain ⟨stage', hp'⟩ := hbasic (opField_ne_zero_of_basic hp)
  rw [hp] at hp'
  cases hp'
  rfl

theorem runStage_s2_basic (hp : planOf (decodeWord s.inst) = .basic a b stage) :
    runStage (s.afterS1 a) = .ok { state := s.afterS2 a b, costed := b.hasNextWord, retired := none } := by
  have hb : Operand.ofCode (highField (s.afterS1 a).inst) = b := by
    rw [State.afterS1, resolve_inst]
    exact ofCode_highField_of_basic hp
  have hrun : runStage (s.afterS1 a) = .ok (runS2 (s.afterS1 a)) := rfl
  have href : (resolve b (s.afterS1 a)).ref = (resolve b (resolve a s).state).ref :=
    resolve_ref_congr b rfl rfl rfl rfl
  rw [hrun, runS2, hb, resolve_costed, href]
  simp only [State.afterS1, State.afterS2, resolvedState, resolve_state]

/-- An execute stage that owes one cycle retires its instruction in it (46_sequencer.md R177). -/
theorem runStage_s3_one {done : Executed} (hs : s.stage = .s3) (h : executeStage s = .ok done)
    (hn : done.cycles = 1) :
    runStage s = .ok { state := done.state.retire, costed := true, retired := some done.state.retirement } := by
  simp only [runStage, hs, runS3, h, hn]

theorem executeStage_afterS2 (hp : planOf (decodeWord s.inst) = .basic a b stage) :
    executeStage (s.afterS2 a b) =
      .ok (stage (destRef a s) (resolve b (resolve a s).state).ref (s.afterS2 a b)) := by
  have hinst : (s.afterS2 a b).inst = s.inst := by rw [State.afterS2, resolvedState_eq]
  exact executeStage_basic (hinst ▸ hp) rfl rfl

/-! ### Whole cycles -/

/-- A cycle that starts in S0 is that stage alone, which always costs the cycle. -/
theorem stepCycle_s0 (hs : s.stage = .s0) :
    stepCycle s = .ok {
      state := (runS0 (s.addCycles 1)).state
      report := Report.none.add (runS0 (s.addCycles 1)).retired } := by
  have hrun : runStage (s.addCycles 1) = .ok (runS0 (s.addCycles 1)) := by
    simp only [runStage, addCycles_stage, hs]
  have hcosted : (runS0 (s.addCycles 1)).costed = true := by
    unfold runS0
    split <;> rfl
  exact cycleLoop_costed 3 Report.none hrun hcosted

/-- The cycle that fetches a word other than zero retires nothing (46_sequencer.md R173). -/
theorem stepCycle_fetch (hs : s.stage = .s0) (hskip : s.skip = false) (hw : s.readMem s.pc ≠ 0) :
    stepCycle s = .ok { state := (s.addCycles 1).fetchFirstWord, report := Report.none } := by
  have hinst : (s.addCycles 1).fetchFirstWord.inst ≠ 0 := hw
  rw [stepCycle_s0 hs, runS0, addCycles_skip, hskip]
  simp only [Bool.false_eq_true, if_false, if_neg hinst, Report.add]

/-- From S1 on, a basic instruction without operand words that owes one execute cycle runs and retires in one cycle:
S1 and S2 are free. -/
theorem cycleLoop_of_free_operands (hs : s.stage = .s1) (hp : planOf (decodeWord s.inst) = .basic a b stage)
    (ha : a.hasNextWord = false) (hb : b.hasNextWord = false) {done : Executed}
    (hdone : stage (destRef a s) (resolve b (resolve a s).state).ref (s.afterS2 a b) = done)
    (hn : done.cycles = 1) :
    cycleLoop 4 Report.none s =
      .ok { state := done.state.retire, report := { retired := 1, last := some done.state.retirement } } := by
  have hexec : executeStage (s.afterS2 a b) = .ok done := by rw [executeStage_afterS2 hp, hdone]
  rw [cycleLoop_free 3 _ (runStage_s1_basic hs hp) ha, cycleLoop_free 2 _ (runStage_s2_basic hp) hb,
    cycleLoop_costed 1 _ (runStage_s3_one rfl hexec hn) rfl]
  rfl

end Cycle

/-! ### The façade's loops -/

theorem runToRetirement_retired {s : State} {r : CycleResult} {last : Retirement} (fuel elapsed : Nat)
    (h : stepCycle s = .ok r) (hlast : r.report.last = some last) :
    runToRetirement (fuel + 1) elapsed s =
      .ok (some { state := r.state, last := last, elapsed := elapsed + 1 }) := by
  simp only [runToRetirement, h, hlast]

theorem runToRetirement_not_retired {s : State} {r : CycleResult} (fuel elapsed : Nat)
    (h : stepCycle s = .ok r) (hlast : r.report.last = none) :
    runToRetirement (fuel + 1) elapsed s = runToRetirement fuel (elapsed + 1) r.state := by
  simp only [runToRetirement, h, hlast]

/-- A turn that leaves no skip pending ends with its retirement. -/
theorem instructionTurn_of_no_skip {s : State} {t : ToRetirement}
    (h : runToRetirement retireBound 0 s = .ok (some t)) (hskip : t.state.skip = false) :
    instructionTurn s = .ok (some t) := by
  simp only [instructionTurn, h, consumeSkip, hskip, Bool.false_eq_true, if_false]

/-- An instruction that retires with PC at its own address ends `step_until_stuck` (47_host_facade.md R203). -/
theorem stepUntilStuck_of_turn {s : State} {t : ToRetirement} (fuel : Nat) (h : instructionTurn s = .ok (some t))
    (hstuck : t.last.pc = t.last.addr) :
    stepUntilStuck (fuel + 1) s = .ok (some { state := t.state, elapsed := t.elapsed }) := by
  simp only [stepUntilStuck, stuckLoop, h, if_pos hstuck, Nat.zero_add]

/-! ### The halt word on the clock -/

theorem decodeWord_halt : decodeWord 0x85C3 = .sub .pc (.smallLit 1) := by decide

theorem clean_stage {s : State} (hc : s.Clean) : s.stage = .s0 := by
  obtain ⟨-, -, -, hstage, -⟩ := hc
  exact hstage

/-- Retiring has nothing to clear in a clean state. -/
theorem retire_of_clean {s : State} (hc : s.Clean) : s.retire = s := by
  cases s
  obtain ⟨rfl, rfl, rfl, rfl, rfl⟩ := hc
  rfl

/-- SUB's execute stage with PC as destination and a literal to subtract. -/
theorem subStage_pc_imm (v : Word) (s : State) :
    subStage .pc (.imm v) s =
      { state := (s.setPc (s.pc - v)).setO (subOverflow s.pc v), cycles := 1 } := by
  rw [← subResult_eq]
  rfl

/-- The cycle after the halt word's fetch: PC goes back by one, O takes the borrow, and the instruction retires. -/
theorem stepCycle_halt {s : State} (hs : s.stage = .s1) (hinst : s.inst = 0x85C3) :
    stepCycle s = .ok {
      state := (((s.addCycles 1).setPc (s.pc - 1)).setO (subOverflow s.pc 1)).retire
      report := { retired := 1, last := some { addr := s.fetchAddr, pc := s.pc - 1 } } } := by
  have hp : planOf (decodeWord (s.addCycles 1).inst) = .basic .pc (.smallLit 1) subStage := by
    rw [addCycles_inst, hinst, decodeWord_halt]
    rfl
  exact cycleLoop_of_free_operands (s := s.addCycles 1) hs hp rfl rfl (subStage_pc_imm 1 _) rfl

/-- The state to which the halt word leads back (45_jsr_control.md R165): only O, the count and the fetch address are
new. -/
def State.afterHalt (s : State) : State :=
  { s with o := if s.pc = 0xFFFF then 0xFFFF else 0, cycles := s.cycles + 2, fetchAddr := s.pc }

/-- The second cycle at the halt word retires it with PC at its own address. -/
theorem stepCycle_fetched_halt {s : State} (hclean : s.Clean) (hword : s.readMem s.pc = 0x85C3) :
    stepCycle (s.addCycles 1).fetchFirstWord = .ok {
      state := s.afterHalt
      report := { retired := 1, last := some { addr := s.pc, pc := s.pc } } } := by
  have hne : s.readMem s.pc ≠ 0 := by rw [hword]; decide
  have hstage : (s.addCycles 1).fetchFirstWord.stage = .s1 := if_neg hne
  have hpc : (s.addCycles 1).fetchFirstWord.pc = s.pc + 1 := rfl
  have hstate : ((((s.addCycles 1).fetchFirstWord.addCycles 1).setPc s.pc).setO
      (if s.pc = 0xFFFF then 0xFFFF else 0)).retire = s.retire.afterHalt := rfl
  rw [stepCycle_halt hstage hword, hpc, BitVec.add_sub_cancel, subOverflow_succ_one, hstate, retire_of_clean hclean]
  rfl

/-- One turn of the façade at the halt word: a cycle that fetches and a cycle that executes. -/
theorem instructionTurn_halt {s : State} (hclean : s.Clean) (hskip : s.skip = false)
    (hword : s.readMem s.pc = 0x85C3) :
    instructionTurn s = .ok (some { state := s.afterHalt, last := { addr := s.pc, pc := s.pc }, elapsed := 2 }) := by
  have hne : s.readMem s.pc ≠ 0 := by rw [hword]; decide
  have hfetch := runToRetirement_not_retired 5 0 (stepCycle_fetch (clean_stage hclean) hskip hne) rfl
  have hexecute := runToRetirement_retired 4 1 (stepCycle_fetched_halt hclean hword) rfl
  exact instructionTurn_of_no_skip (hfetch.trans hexecute) hskip

end Sys2Proof.Machine

namespace Sys2Proof

open Machine

/-- Settles O18: resolving the operand moves PC and SP by its changes, and JSR's execute stage then reads the target,
pushes PC below SP and jumps. -/
theorem jsrPushesReturnAddressAndJumps : Obligations.JsrPushesReturnAddressAndJumps := by
  intro a s
  refine ⟨decodeWord_encodeWord (i := .jsr a) rfl, _, exec_jsr a s, rfl, ?_, ?_, fun addr haddr => ?_, fun r => ?_, ?_,
    ?_, exec_sameSequencer (exec_jsr a s), ?_⟩
  · rw [addCycles_sp, jsrStage_sp, resolve_sp]
  · rw [readMem_addCycles, ← resolve_sp, jsrStage_readMem_top, resolve_pc]
  · rw [← resolve_sp] at haddr
    rw [readMem_addCycles, jsrStage_readMem_ne _ _ haddr, resolve_readMem]
  · rw [getReg_addCycles, jsrStage_getReg, resolve_getReg]
  · rw [addCycles_o, jsrStage_o, resolve_o]
  · rw [addCycles_skip, jsrStage_skip, resolve_skip]
  · rw [addCycles_cycles, jsrStage_state_cycles, resolve_cycles]

/-- Settles O47: the first turn retires the halt word at its own address, so the loop ends with it, whatever the
fuel. -/
theorem haltWordIsStuck : Obligations.HaltWordIsStuck := fun fuel _ hclean hskip hword =>
  stepUntilStuck_of_turn fuel (instructionTurn_halt hclean hskip hword) rfl

end Sys2Proof

/-! SUPPORT. The sequencer's two levels: that no stage sees the cycle counter, where each stage leads, the free stages
that `Flush` and a cycle run alike, and that a step is what its stages do one by one. -/

namespace Sys2Proof.Machine

/-! ### Stages do not see the cycle counter -/

/-- A transparent stage commutes with every update of the working set. -/
theorem Transparent.comm {f : State → Executed} (hf : Transparent f) {g : State → State}
    (hg : ∀ s q : State, g (s.withWorkingSet q) = s.withWorkingSet (g q)) (s : State) :
    f (g s) = { state := g (f s).state, cycles := (f s).cycles } := by
  have hown : (f s).state = (f s).state.withWorkingSet s := congrArg Executed.state (hf s s)
  calc f (g s) = f (s.withWorkingSet (g s)) := congrArg f (hg s s)
    _ = { state := (f s).state.withWorkingSet (g s), cycles := (f s).cycles } := hf s (g s)
    _ = { state := g (f s).state, cycles := (f s).cycles } := by rw [← hg, ← hown]

/-- `Execute()` commutes with every update of the working set that leaves the instruction and its references alone. -/
theorem executeStage_comm {g : State → State} (hg : ∀ s q : State, g (s.withWorkingSet q) = s.withWorkingSet (g q))
    {s : State} (hinst : (g s).inst = s.inst) (ha : (g s).aRef = s.aRef) (hb : (g s).bRef = s.bRef)
    {done : Executed} (h : executeStage s = .ok done) :
    executeStage (g s) = .ok { state := g done.state, cycles := done.cycles } := by
  have htransparent := planOf_transparent (decodeWord s.inst)
  unfold executeStage at h ⊢
  rw [hinst, ha, hb]
  cases hp : planOf (decodeWord s.inst) with
  | basic a b stage =>
    rw [hp] at h htransparent
    cases haRef : s.aRef with
    | none => simp [haRef] at h
    | some ra =>
      cases hbRef : s.bRef with
      | none => simp [haRef, hbRef] at h
      | some rb =>
        simp only [haRef, hbRef, Except.ok.injEq] at h
        subst h
        exact congrArg Except.ok ((htransparent ra rb).comm hg s)
  | extended a stage =>
    rw [hp] at h htransparent
    cases haRef : s.aRef with
    | none => simp [haRef] at h
    | some ra =>
      simp only [haRef, Except.ok.injEq] at h
      subst h
      exact congrArg Except.ok ((htransparent ra).comm hg s)
  | discard =>
    simp only [hp, Except.ok.injEq] at h
    subst h
    rfl

theorem resolve_addCycles (c : Operand) (s : State) (n : Nat) :
    resolve c (s.addCycles n) = { resolve c s with state := (resolve c s).state.addCycles n } := by
  cases c <;> rfl

theorem runS0_addCycles (s : State) (n : Nat) :
    runS0 (s.addCycles n) = { runS0 s with state := (runS0 s).state.addCycles n } := by
  unfold runS0
  rw [addCycles_skip]
  split <;> rfl

theorem runS1_addCycles (s : State) (n : Nat) :
    runS1 (s.addCycles n) = { runS1 s with state := (runS1 s).state.addCycles n } := by
  unfold runS1
  rw [addCycles_inst]
  cases planOf (decodeWord s.inst) <;> simp only [resolve_addCycles] <;> rfl

theorem runS2_addCycles (s : State) (n : Nat) :
    runS2 (s.addCycles n) = { runS2 s with state := (runS2 s).state.addCycles n } := by
  simp only [runS2, addCycles_inst, resolve_addCycles]
  rfl

theorem runBurn_addCycles (s : State) (n : Nat) :
    runBurn (s.addCycles n) = { runBurn s with state := (runBurn s).state.addCycles n } := by
  by_cases h : s.burnLeft - 1 = 0 <;> simp only [runBurn, addCycles_burnLeft, h, if_true, if_false] <;> rfl

/-- What S3 makes of its execute stage's answer, by the execute cycles owed (46_sequencer.md R177). -/
def Executed.toRun (done : Executed) : StageRun :=
  match done.cycles with
  | 0 => { state := done.state.retire, costed := false, retired := some done.state.retirement }
  | 1 => { state := done.state.retire, costed := true, retired := some done.state.retirement }
  | n + 2 => { state := { done.state with stage := .burn, burnLeft := n + 1 }, costed := true, retired := none }

theorem runS3_of_executeStage {s : State} {done : Executed} (h : executeStage s = .ok done) :
    runS3 s = .ok done.toRun := by
  obtain ⟨t, _ | _ | m⟩ := done <;> simp only [runS3, h, Executed.toRun]

theorem runS3_eq_ok {s : State} {r : StageRun} (h : runS3 s = .ok r) :
    ∃ done, executeStage s = .ok done ∧ r = done.toRun := by
  cases hdone : executeStage s with
  | error e => simp [runS3, hdone] at h
  | ok done => exact ⟨done, rfl, Except.ok.inj (h.symm.trans (runS3_of_executeStage hdone))⟩

theorem toRun_addCycles (done : Executed) (n : Nat) :
    Executed.toRun { state := done.state.addCycles n, cycles := done.cycles } =
      { done.toRun with state := done.toRun.state.addCycles n } := by
  obtain ⟨t, _ | _ | m⟩ := done <;> rfl

theorem runS3_addCycles {s : State} {r : StageRun} (h : runS3 s = .ok r) (n : Nat) :
    runS3 (s.addCycles n) = .ok { r with state := r.state.addCycles n } := by
  obtain ⟨done, hdone, rfl⟩ := runS3_eq_ok h
  have hlater := executeStage_comm (g := (·.addCycles n)) (fun _ _ => rfl) rfl rfl rfl hdone
  rw [runS3_of_executeStage hlater, toRun_addCycles]

/-- The pending stage does the same whatever the cycle counter, and leaves it alone. -/
theorem runStage_addCycles {s : State} {r : StageRun} (h : runStage s = .ok r) (n : Nat) :
    runStage (s.addCycles n) = .ok { r with state := r.state.addCycles n } := by
  cases hs : s.stage <;> simp only [runStage, addCycles_stage, hs] at h ⊢
  case s0 => cases h; rw [runS0_addCycles]
  case s1 => cases h; rw [runS1_addCycles]
  case s2 => cases h; rw [runS2_addCycles]
  case s3 => exact runS3_addCycles h n
  case burn => cases h; rw [runBurn_addCycles]

/-- A cycle with a costed stage pending is that stage alone. -/
theorem stepCycle_of_costed {s : State} {r : StageRun} (h : runStage s = .ok r) (hc : r.costed = true) :
    stepCycle s = .ok { state := r.state.addCycles 1, report := Report.none.add r.retired } :=
  cycleLoop_costed 3 Report.none (runStage_addCycles h 1) hc

/-! ### Where a stage leads -/

theorem runS0_skip {s : State} (hskip : s.skip = true) :
    runS0 s = { state := s.skipNext, costed := true, retired := none } := if_pos hskip

theorem runS0_fetch {s : State} (hskip : s.skip = false) :
    runS0 s = {
      state := s.fetchFirstWord
      costed := true
      retired := if s.wordAtPc = 0 then some { addr := s.pc, pc := s.pc + 1 } else none } :=
  if_neg (by simp [hskip])

/-- What retires in S0 is a zero word that it fetches (46_sequencer.md R183). -/
theorem runS0_retired {s : State} {l : Retirement} (h : (runS0 s).retired = some l) :
    s.wordAtPc = 0 ∧ (runS0 s).state = s.fetchFirstWord ∧ l = { addr := s.pc, pc := s.pc + 1 } := by
  cases hskip : s.skip with
  | true => simp [runS0_skip hskip] at h
  | false =>
    rw [runS0_fetch hskip, Option.ite_none_right_eq_some] at h
    obtain ⟨hw, hl⟩ := h
    exact ⟨hw, by rw [runS0_fetch hskip], (Option.some.inj hl).symm⟩

theorem runBurn_last {s : State} (h : s.burnLeft - 1 = 0) :
    runBurn s = { state := s.retire, costed := true, retired := some s.retirement } := if_pos h

theorem runBurn_more {s : State} (h : s.burnLeft - 1 ≠ 0) :
    runBurn s = { state := { s with burnLeft := s.burnLeft - 1 }, costed := true, retired := none } := if_neg h

theorem runBurn_costed (s : State) : (runBurn s).costed = true := by
  by_cases h : s.burnLeft - 1 = 0
  · rw [runBurn_last h]
  · rw [runBurn_more h]

/-- Which stage follows which, whether the stage before cost its cycle, and whether an instruction retired. -/
inductive StageMove : Stage → Bool → Option Retirement → Stage → Prop
  | passOver : StageMove .s0 true none .s0
  | fetchZero (l : Retirement) : StageMove .s0 true (some l) .s0
  | fetch : StageMove .s0 true none .s1
  | resolveA (costed : Bool) : StageMove .s1 costed none .s2
  | resolveOnly (costed : Bool) : StageMove .s1 costed none .s3
  | discard (l : Retirement) : StageMove .s1 false (some l) .s0
  | resolveB (costed : Bool) : StageMove .s2 costed none .s3
  | execute (costed : Bool) (l : Retirement) : StageMove .s3 costed (some l) .s0
  | executeThenBurn : StageMove .s3 true none .burn
  | burn (l : Retirement) : StageMove .burn true (some l) .s0

theorem runStage_move {s : State} {r : StageRun} (hi : s.Inv) (h : runStage s = .ok r) :
    StageMove s.stage r.costed r.retired r.state.stage := by
  cases hs : s.stage <;> simp only [runStage, hs, Except.ok.injEq] at h
  case s0 =>
    subst h
    cases hskip : s.skip with
    | true =>
      rw [runS0_skip hskip]
      exact hs ▸ .passOver
    | false =>
      rw [runS0_fetch hskip]
      by_cases hw : s.wordAtPc = 0 <;> simp only [State.fetchFirstWord, hw, if_true, if_false]
      · exact .fetchZero _
      · exact .fetch
  case s1 =>
    subst h
    unfold runS1
    cases planOf (decodeWord s.inst) with
    | basic => exact .resolveA _
    | extended => exact .resolveOnly _
    | discard => exact .discard _
  case s2 =>
    subst h
    exact .resolveB _
  case s3 =>
    obtain ⟨⟨t, _ | _ | m⟩, -, rfl⟩ := runS3_eq_ok h
    · exact .execute _ _
    · exact .execute _ _
    · exact .executeThenBurn
  case burn =>
    subst h
    obtain ⟨-, -, -, hburn⟩ := (sequencerOk_burn hs).mp hi.1
    rw [runBurn_last (by simp [hburn])]
    exact .burn _

theorem sound_of_runStage {s : State} {r : StageRun} (hi : s.Inv) (h : runStage s = .ok r) : r.Sound s := by
  obtain ⟨q, hq, hsound⟩ := runStage_sound hi
  cases hq.symm.trans h
  exact hsound

/-- The stages that an instruction can still run from a stage on, that stage included. -/
def Stage.left : Stage → Nat
  | .s0 => 5
  | .s1 => 4
  | .s2 => 3
  | .s3 => 2
  | .burn => 1

/-- The stages from a stage on that can be free. -/
def Stage.freeLeft : Stage → Nat
  | .s1 => 3
  | .s2 => 2
  | .s3 => 1
  | .s0 | .burn => 0

section Move

variable {p q : Stage} {costed : Bool} {retired : Option Retirement}

theorem StageMove.left_lt (h : StageMove p costed retired q) : q = .s0 ∨ q.left < p.left := by
  cases h <;> decide

theorem StageMove.freeLeft_lt (h : StageMove p costed retired q) (hc : costed = false) :
    q.freeLeft < p.freeLeft := by
  subst hc
  cases h <;> decide

theorem StageMove.costed_of_s0 (h : StageMove p costed retired q) (hp : p = .s0) : costed = true := by
  subst hp
  cases h <;> rfl

theorem StageMove.to_s0_of_retired (h : StageMove p costed retired q) {l : Retirement} (hl : retired = some l) :
    q = .s0 := by
  subst hl
  cases h <;> rfl

end Move

/-! ### The free stages -/

/-- Free stages, none or some, lead from a state to another, and a report to another. -/
inductive FreeStages : Report → State → Report → State → Prop
  | none (rep : Report) (s : State) : FreeStages rep s rep s
  | head {rep rep' : Report} {s t : State} {r : StageRun} (h : runStage s = .ok r) (hfree : r.costed = false)
      (rest : FreeStages (rep.add r.retired) r.state rep' t) : FreeStages rep s rep' t

/-- Free stages lead from `s` to `t`, and `rep` to `rep'`, and there the pending stage is costed and does `q`. -/
structure FreeThenCosted (rep : Report) (s : State) (rep' : Report) (t : State) (q : StageRun) : Prop where
  free : FreeStages rep s rep' t
  inv : t.Inv
  run : runStage t = .ok q
  costed : q.costed = true

/-- From a state of the invariant the free stages end before a costed one. -/
theorem exists_freeThenCosted (rep : Report) {s : State} (hi : s.Inv) :
    ∃ rep' t q, FreeThenCosted rep s rep' t q := by
  induction hn : s.stage.freeLeft using Nat.strong_induction_on generalizing rep s with
  | _ n ih =>
    obtain ⟨r, hr, hsound⟩ := runStage_sound hi
    cases hc : r.costed with
    | true => exact ⟨rep, s, r, .none rep s, hi, hr, hc⟩
    | false =>
      have hlt := (runStage_move hi hr).freeLeft_lt hc
      obtain ⟨rep', t, q, hq⟩ := ih _ (hn ▸ hlt) (rep.add r.retired) hsound.inv rfl
      exact ⟨rep', t, q, { hq with free := .head hr hc hq.free }⟩

theorem freeLeft_le (p : Stage) : p.freeLeft ≤ 3 := by cases p <;> decide

section FreeStages

variable {rep rep' : Report} {s t : State} {q : StageRun}

theorem FreeStages.addCycles (h : FreeStages rep s rep' t) (n : Nat) :
    FreeStages rep (s.addCycles n) rep' (t.addCycles n) := by
  induction h with
  | none rep s => exact .none rep _
  | head hr hfree _ ih => exact .head (runStage_addCycles hr n) hfree ih

/-- `Flush` runs the free stages and stops before the costed one. -/
theorem FreeStages.flushLoop_eq (h : FreeStages rep s rep' t) (hi : s.Inv) (hq : runStage t = .ok q)
    (hc : q.costed = true) : ∀ {n : Nat}, s.stage.freeLeft ≤ n → flushLoop n s = .ok t := by
  induction h with
  | none rep s =>
    intro n _
    cases n with
    | zero => rfl
    | succ n => simp only [flushLoop, hq, hc, if_true]
  | head hr hfree _ ih =>
    intro n hn
    have hlt := (runStage_move hi hr).freeLeft_lt hfree
    obtain ⟨m, rfl⟩ : ∃ m, n = m + 1 := ⟨n - 1, by omega⟩
    simp only [flushLoop, hr, hfree, Bool.false_eq_true, if_false]
    exact ih (sound_of_runStage hi hr).inv hq (by omega)

/-- A cycle runs the free stages and then the costed one. -/
theorem FreeStages.cycleLoop_eq (h : FreeStages rep s rep' t) (hi : s.Inv) (hq : runStage t = .ok q)
    (hc : q.costed = true) : ∀ {n : Nat}, s.stage.freeLeft < n →
      cycleLoop n rep s = .ok { state := q.state, report := rep'.add q.retired } := by
  induction h with
  | none rep s =>
    intro n hn
    obtain ⟨m, rfl⟩ : ∃ m, n = m + 1 := ⟨n - 1, by omega⟩
    exact cycleLoop_costed m rep hq hc
  | head hr hfree _ ih =>
    intro n hn
    have hlt := (runStage_move hi hr).freeLeft_lt hfree
    obtain ⟨m, rfl⟩ : ∃ m, n = m + 1 := ⟨n - 1, by omega⟩
    rw [cycleLoop_free m _ hr hfree]
    exact ih (sound_of_runStage hi hr).inv hq (by omega)

theorem FreeStages.of_s0 (h : FreeStages rep s rep' t) (hi : s.Inv) (hs : s.stage = .s0) : rep' = rep ∧ t = s := by
  cases h with
  | none => exact ⟨rfl, rfl⟩
  | head hr hfree _ =>
    have hcosted := (runStage_move hi hr).costed_of_s0 hs
    simp [hfree] at hcosted

/-- Free stages retire one instruction at most, and then S0 is pending. -/
theorem FreeStages.report_eq (h : FreeStages rep s rep' t) (hi : s.Inv) :
    rep' = rep ∨ t.stage = .s0 ∧ ∃ l, rep' = rep.add (some l) := by
  induction h with
  | none => exact .inl rfl
  | @head _ _ _ _ r hr hfree rest ih =>
    have hmove := runStage_move hi hr
    have hinv := (sound_of_runStage hi hr).inv
    cases hl : r.retired with
    | none =>
      have := ih hinv
      rwa [hl] at this
    | some l =>
      have hs0 := hmove.to_s0_of_retired hl
      obtain ⟨hrep, rfl⟩ := rest.of_s0 hinv hs0
      exact .inr ⟨hs0, l, by rw [hrep, hl]⟩

/-- `Flush` answers the state in which the costed stage is pending. -/
theorem FreeThenCosted.flush_eq (h : FreeThenCosted rep s rep' t q) (hi : s.Inv) : flush s = .ok t :=
  h.free.flushLoop_eq hi h.run h.costed (freeLeft_le _)

/-- A cycle ends with the costed stage. -/
theorem FreeThenCosted.stepCycle_eq (h : FreeThenCosted Report.none s rep' t q) (hi : s.Inv) :
    stepCycle s = .ok { state := q.state.addCycles 1, report := rep'.add q.retired } :=
  (h.free.addCycles 1).cycleLoop_eq (addCycles_inv hi 1) (runStage_addCycles h.run 1) h.costed
    (Nat.lt_succ_of_le (freeLeft_le _))

end FreeStages

/-! ### `Flush` -/

theorem exists_flush {s : State} (hi : s.Inv) : ∃ t, flush s = .ok t := by
  obtain ⟨_, t, _, h⟩ := exists_freeThenCosted Report.none hi
  exact ⟨t, h.flush_eq hi⟩

/-- A free stage is one of those that `Flush` runs. -/
theorem flush_of_free {s : State} {r : StageRun} (hi : s.Inv) (hr : runStage s = .ok r) (hc : r.costed = false) :
    flush s = flush r.state := by
  have hri := (sound_of_runStage hi hr).inv
  obtain ⟨_, t, q, h⟩ := exists_freeThenCosted (Report.none.add r.retired) hri
  have hhead : FreeThenCosted Report.none s _ t q := { h with free := .head hr hc h.free }
  rw [h.flush_eq hri, hhead.flush_eq hi]

theorem flush_of_s0 {s : State} (hi : s.Inv) (hs : s.stage = .s0) : flush s = .ok s := by
  obtain ⟨_, t, _, h⟩ := exists_freeThenCosted Report.none hi
  rw [h.flush_eq hi, (h.free.of_s0 hi hs).2]

/-! ### The two packings -/

/-- One cycle of the backward machine, from where `Flush` leads, is a cycle of this machine and then `Flush`. -/
theorem stepCycleBackward_of_flush {s t : State} (hi : s.Inv) (h : flush s = .ok t) :
    ∃ r, stepCycle s = .ok r ∧ r.state.Inv ∧ stepCycleBackward t = flush r.state := by
  obtain ⟨_, _, q, hq⟩ := exists_freeThenCosted Report.none hi
  cases (hq.flush_eq hi).symm.trans h
  exact ⟨_, hq.stepCycle_eq hi, addCycles_inv (sound_of_runStage hq.inv hq.run).inv 1,
    by rw [stepCycleBackward, runStage_addCycles hq.run 1]⟩

/-- The simulation of the packings: cycles and then `Flush` depend on what `Flush` answers first, and are the backward
machine's cycles from there. -/
theorem cyclesThenFlush_eq_backward (n : Nat) : ∀ {s t : State}, s.Inv → flush s = .ok t →
    cyclesThenFlush n s = stepCyclesBackward n t := by
  induction n with
  | zero => exact fun _ hflush => hflush
  | succ n ih =>
    intro s t hi hflush
    obtain ⟨r, hcycle, hri, hback⟩ := stepCycleBackward_of_flush hi hflush
    obtain ⟨u, hu⟩ := exists_flush hri
    calc cyclesThenFlush (n + 1) s = cyclesThenFlush n r.state := by simp only [cyclesThenFlush, stepCycles, hcycle]
      _ = stepCyclesBackward n u := ih hri hu
      _ = stepCyclesBackward (n + 1) t := by simp only [stepCyclesBackward, hback, hu]

/-! ### A step, stage by stage -/

/-- The state after a stage, with its cycle counted if it consumed one. -/
def StageRun.counted (r : StageRun) : State := r.state.addCycles r.costed.toNat

theorem counted_inv {s : State} {r : StageRun} (h : r.Sound s) : r.counted.Inv := addCycles_inv h.inv _

theorem counted_cycles {s : State} {r : StageRun} (h : r.Sound s) :
    r.counted.cycles = s.cycles + r.costed.toNat := by
  rw [StageRun.counted, addCycles_cycles, h.counter]

/-- What is left of a step after one of its stages: nothing once S0 is pending. -/
def State.restOfStep (s : State) : Host.Outcome State Fault Refusal := if s.stage = .s0 then .next s else step s

theorem restOfStep_of_s0 {s : State} (h : s.stage = .s0) : s.restOfStep = .next s := if_pos h
theorem restOfStep_of_ne_s0 {s : State} (h : s.stage ≠ .s0) : s.restOfStep = step s := if_neg h

theorem step_skip {s : State} (hs : s.stage = .s0) (hskip : s.skip = true) :
    step s = .next (s.skipNext.addCycles 1) := by
  simp only [step, stepInstruction1, hs, hskip, if_true]
theorem step_s1 {s : State} (hs : s.stage = .s1) : step s = exec (decodeWord s.inst) s.retire := by
  simp only [step, stepInstruction1, hs]
theorem step_s2 {s : State} (hs : s.stage = .s2) : step s = finishFromResolveB s := by
  simp only [step, stepInstruction1, hs]
theorem step_s3 {s : State} (hs : s.stage = .s3) : step s = finishFromExecute s := by
  simp only [step, stepInstruction1, hs]
theorem step_burn {s : State} (hs : s.stage = .burn) : step s = .next (s.retire.addCycles (max 1 s.burnLeft)) := by
  simp only [step, stepInstruction1, hs]

theorem finishFromExecute_of_executeStage {s : State} {done : Executed} (h : executeStage s = .ok done) :
    finishFromExecute s = .next (done.state.retire.addCycles done.cycles) := by
  simp only [finishFromExecute, h]

/-- The fetch of a cycle leaves the machine where a step's fetch does, but for the working set. -/
theorem fetchFirstWord_retire {s : State} (hc : s.Clean) :
    (s.fetchFirstWord.addCycles 1).retire = s.pastFirstWord := by
  rw [← retire_of_clean (pastFirstWord_clean hc)]
  rfl

theorem step_runS0 {s : State} (hi : s.Inv) (hs : s.stage = .s0) : step s = (runS0 s).counted.restOfStep := by
  have hclean := clean_of_s0 hi hs
  cases hskip : s.skip with
  | true =>
    rw [step_skip hs hskip, runS0_skip hskip]
    exact (restOfStep_of_s0 (s := s.skipNext.addCycles 1) hs).symm
  | false =>
    have hcounted : (runS0 s).counted = s.fetchFirstWord.addCycles 1 := by rw [runS0_fetch hskip]; rfl
    have hinv : (s.fetchFirstWord.addCycles 1).Inv := hcounted ▸ (runS0_sound hi hs).inv
    rw [hcounted, step_of_s0 hs hskip, ← fetchFirstWord_retire hclean]
    by_cases hw : s.readMem s.pc = 0
    · have hs0 : (s.fetchFirstWord.addCycles 1).stage = .s0 := if_pos hw
      rw [restOfStep_of_s0 hs0, retire_of_clean (clean_of_s0 hinv hs0), hw]
      rfl
    · have hs1 : (s.fetchFirstWord.addCycles 1).stage = .s1 := if_neg hw
      rw [restOfStep_of_ne_s0 (by rw [hs1]; decide), step_s1 hs1]
      rfl

theorem step_runS2 {s : State} (hi : s.Inv) (hs : s.stage = .s2) : step s = (runS2 s).counted.restOfStep := by
  have hinv : (runS2 s).counted.Inv := counted_inv (runS2_sound hi hs)
  have hs3 : (runS2 s).counted.stage = .s3 := rfl
  obtain ⟨done, hdone⟩ := executeStage_ok hinv hs3
  have hstage := executeStage_comm (g := fun u => { u with stage := s.stage }) (fun _ _ => rfl) rfl rfl rfl hdone
  have hresolved : { (runS2 s).counted with stage := s.stage } =
      { (resolve (Operand.ofCode (highField s.inst)) s).state.addCycles
          (resolve (Operand.ofCode (highField s.inst)) s).costed.toNat with
        bRef := some (resolve (Operand.ofCode (highField s.inst)) s).ref } := by
    simp only [runS2, StageRun.counted, resolve_state]
    rfl
  rw [hresolved] at hstage
  rw [restOfStep_of_ne_s0 (by rw [hs3]; decide), step_s3 hs3, finishFromExecute_of_executeStage hdone, step_s2 hs]
  exact (finishFromExecute_of_executeStage hstage).trans rfl

/-- A transparent execute stage finishes its instruction alike whatever the working set and the cycles so far. -/
theorem finishFromExecute_of_transparent {f : State → Executed} (hf : Transparent f) {s : State}
    (h : executeStage s = .ok (f s)) (n : Nat) :
    finishFromExecute (s.addCycles n) =
      .next ((f s.retire).state.addCycles (n + (f s.retire).cycles)) := by
  have hlater := executeStage_comm (g := (·.addCycles n)) (fun _ _ => rfl) rfl rfl rfl h
  rw [finishFromExecute_of_executeStage hlater, hf.comm (g := State.retire) fun _ _ => rfl]
  exact congrArg Host.Outcome.next (addCycles_addCycles (f s).state.retire n (f s).cycles)

/-- From S1 a basic instruction's meaning is its execute stage after both resolutions. -/
theorem exec_retire_of_basic {s : State} {a b : Operand} {stage : OpRef → OpRef → State → Executed}
    (hp : planOf (decodeWord s.inst) = .basic a b stage) :
    exec (decodeWord s.inst) s.retire =
      finishFromExecute ((s.afterS2 a b).addCycles (a.resolveCycles + b.resolveCycles)) := by
  have htransparent := planOf_transparent (decodeWord s.inst)
  rw [hp] at htransparent
  have ha : destRef a s.retire = destRef a s := resolve_ref_congr a rfl rfl rfl rfl
  have hb : (resolve b (resolve a s.retire).state).ref = (resolve b (resolve a s).state).ref :=
    resolve_ref_congr b (by simp) (by simp) (by simp) (by simp)
  have hresolved : resolvedState a b s.retire = (s.afterS2 a b).retire := by
    simp only [State.afterS2, resolvedState_eq]
    rfl
  rw [finishFromExecute_of_transparent (htransparent _ _) (executeStage_afterS2 hp), exec_of_basic hp, ha, hb,
    hresolved]

/-- The state in which S1 leaves an extended instruction: its one operand is resolved. -/
def State.afterS1Only (a : Operand) (s : State) : State := { s.afterS1 a with stage := .s3 }

theorem runS1_basic {s : State} {a b : Operand} {stage : OpRef → OpRef → State → Executed}
    (hp : planOf (decodeWord s.inst) = .basic a b stage) :
    runS1 s = { state := s.afterS1 a, costed := a.hasNextWord, retired := none } := by
  simp only [runS1, hp, resolve_costed, State.afterS1, destRef]

theorem runS1_extended {s : State} {a : Operand} {stage : OpRef → State → Executed}
    (hp : planOf (decodeWord s.inst) = .extended a stage) :
    runS1 s = { state := s.afterS1Only a, costed := a.hasNextWord, retired := none } := by
  simp only [runS1, hp, resolve_costed, State.afterS1Only, State.afterS1, destRef]

/-- From S1 an extended instruction's meaning is its execute stage after the resolution. -/
theorem exec_retire_of_extended {s : State} {a : Operand} {stage : OpRef → State → Executed}
    (hp : planOf (decodeWord s.inst) = .extended a stage) :
    exec (decodeWord s.inst) s.retire = finishFromExecute ((s.afterS1Only a).addCycles a.resolveCycles) := by
  have htransparent := planOf_transparent (decodeWord s.inst)
  rw [hp] at htransparent
  have hinst : (s.afterS1Only a).inst = s.inst := resolve_inst a s
  have ha : (resolve a s.retire).ref = destRef a s := resolve_ref_congr a rfl rfl rfl rfl
  have hresolved : (resolve a s.retire).state = (s.afterS1Only a).retire := by
    simp only [State.afterS1Only, State.afterS1, resolve_state]
    rfl
  rw [finishFromExecute_of_transparent (htransparent _) (executeStage_extended (hinst ▸ hp) rfl), exec_eq_run, hp,
    Plan.run, runExtended_next, ha, hresolved]

theorem step_runS1 {s : State} (hi : s.Inv) (hs : s.stage = .s1) : step s = (runS1 s).counted.restOfStep := by
  have hinv : (runS1 s).counted.Inv := counted_inv (runS1_sound hi hs)
  rw [step_s1 hs]
  cases hp : planOf (decodeWord s.inst) with
  | basic a b stage =>
    have hrun := runS1_basic hp
    have hs2 : (runS1 s).counted.stage = .s2 := by rw [hrun]; rfl
    have hrun2 : runS2 (runS1 s).counted =
        { state := (s.afterS2 a b).addCycles a.resolveCycles, costed := b.hasNextWord, retired := none } := by
      rw [hrun]
      exact Except.ok.inj (runStage_addCycles (runStage_s2_basic hp) _)
    rw [restOfStep_of_ne_s0 (by rw [hs2]; decide), step_runS2 hinv hs2, hrun2, exec_retire_of_basic hp,
      ← addCycles_addCycles]
    rfl
  | extended a stage =>
    rw [runS1_extended hp]
    exact exec_retire_of_extended hp
  | discard =>
    obtain ⟨xop, a, hinstr⟩ := planOf_eq_discard hp
    simp only [runS1, hinstr]
    rfl

theorem step_runS3 {s : State} {r : StageRun} (h : runS3 s = .ok r) (hs : s.stage = .s3) :
    step s = r.counted.restOfStep := by
  obtain ⟨done, hdone, rfl⟩ := runS3_eq_ok h
  rw [step_s3 hs, finishFromExecute_of_executeStage hdone]
  obtain ⟨t, _ | _ | m⟩ := done
  · rfl
  · rfl
  · have hburn : (Executed.toRun { state := t, cycles := m + 2 }).counted.stage = .burn := rfl
    rw [restOfStep_of_ne_s0 (by rw [hburn]; decide), step_burn hburn]
    have hmax : max 1 (m + 1) = m + 1 := by omega
    calc Host.Outcome.next (t.retire.addCycles (m + 2))
        = .next ((t.retire.addCycles 1).addCycles (m + 1)) := by rw [addCycles_addCycles, Nat.add_comm 1]
      _ = .next ((t.retire.addCycles 1).addCycles (max 1 (m + 1))) := by rw [hmax]

theorem step_runBurn {s : State} (hi : s.Inv) (hs : s.stage = .burn) : step s = (runBurn s).counted.restOfStep := by
  obtain ⟨-, -, -, hburn⟩ := (sequencerOk_burn hs).mp hi.1
  rw [step_burn hs, runBurn_last (by simp [hburn]), hburn]
  rfl

/-- A step is its pending stage and then the rest of it (46_sequencer.md R188). -/
theorem step_of_runStage {s : State} {r : StageRun} (hi : s.Inv) (h : runStage s = .ok r) :
    step s = r.counted.restOfStep := by
  cases hs : s.stage <;> simp only [runStage, hs, Except.ok.injEq] at h
  case s0 => exact h ▸ step_runS0 hi hs
  case s1 => exact h ▸ step_runS1 hi hs
  case s2 => exact h ▸ step_runS2 hi hs
  case s3 => exact step_runS3 h hs
  case burn => exact h ▸ step_runBurn hi hs

/-- Cycles and then `Flush` are the pending stage, with its cycle if it costs one, and then the cycles left. -/
theorem cyclesThenFlush_of_runStage {s : State} {r : StageRun} (hi : s.Inv) (h : runStage s = .ok r) (n : Nat) :
    cyclesThenFlush (n + r.costed.toNat) s = cyclesThenFlush n r.counted := by
  cases hc : r.costed with
  | true =>
    simp only [cyclesThenFlush, Bool.toNat_true, stepCycles, stepCycle_of_costed h hc, StageRun.counted, hc]
  | false =>
    obtain ⟨t, ht⟩ := exists_flush (sound_of_runStage hi h).inv
    have hflush : flush s = .ok t := (flush_of_free hi h hc).trans ht
    have hcounted : r.counted = r.state := by rw [StageRun.counted, hc]; rfl
    rw [hcounted, cyclesThenFlush_eq_backward n (sound_of_runStage hi h).inv ht]
    exact cyclesThenFlush_eq_backward n hi hflush

/-- A step is cycles and then `Flush`, by induction on the stages left: the number of cycles is the number of
costed stages among them. -/
theorem step_cyclesThenFlush {s : State} (hi : s.Inv) :
    ∃ n t, step s = .next t ∧ cyclesThenFlush n s = .ok t ∧ t.cycles = s.cycles + n ∧ n ≤ s.stage.left ∧
      (s.stage = .s0 → 1 ≤ n) := by
  induction hm : s.stage.left using Nat.strong_induction_on generalizing s with
  | _ m ih =>
    obtain ⟨r, hr, hsound⟩ := runStage_sound hi
    have hmove := runStage_move hi hr
    have hstep := step_of_runStage hi hr
    have hcount := counted_cycles hsound
    have hone : r.costed.toNat ≤ 1 := Bool.toNat_le _
    have hcosted : s.stage = .s0 → 1 ≤ r.costed.toNat := fun hs => by rw [hmove.costed_of_s0 hs]; rfl
    by_cases hs0 : r.counted.stage = .s0
    · have hpos : 1 ≤ s.stage.left := by cases s.stage <;> decide
      refine ⟨0 + r.costed.toNat, r.counted, ?_, ?_, by omega, by omega,
        fun hs => (hcosted hs).trans (Nat.le_add_left ..)⟩
      · rw [hstep, restOfStep_of_s0 hs0]
      · rw [cyclesThenFlush_of_runStage hi hr]
        exact flush_of_s0 (counted_inv hsound) hs0
    · have hlt : r.counted.stage.left < m := hm ▸ hmove.left_lt.resolve_left hs0
      obtain ⟨n, t, ht, hcycles, htcount, hn, -⟩ := ih _ hlt (counted_inv hsound) rfl
      refine ⟨n + r.costed.toNat, t, ?_, ?_, by omega, by omega,
        fun hs => (hcosted hs).trans (Nat.le_add_left ..)⟩
      · rw [hstep, restOfStep_of_ne_s0 hs0, ht]
      · rw [cyclesThenFlush_of_runStage hi hr, hcycles]

end Sys2Proof.Machine

namespace Sys2Proof

open Machine

/-- Settles O42: five stages are left from S0 on, and fewer from the others. -/
theorem stepIsCyclesThenFlush : Obligations.StepIsCyclesThenFlush := by
  intro s hi
  obtain ⟨n, t, hstep, hcycles, hcount, hn, hpos⟩ := step_cyclesThenFlush hi
  have hleft : s.stage.left ≤ 5 := by cases s.stage <;> decide
  exact ⟨n, t, hstep, hcycles, hcount, hn.trans hleft, hpos⟩

/-- Settles O43: a clean state is its own `Flush`, so it is the case of the simulation with equal states. -/
theorem backwardPackingIsFlushedForwardPacking : Obligations.BackwardPackingIsFlushedForwardPacking :=
  fun _ k hi hclean => (cyclesThenFlush_eq_backward k hi (flush_of_s0 hi (clean_stage hclean))).symm

/-- Settles O31: both levels run the skip variant of S0. -/
theorem skipPassesOneInstruction : Obligations.SkipPassesOneInstruction := by
  intro s hclean hskip
  have hs := clean_stage hclean
  have hrun : runStage s = .ok (runS0 s) := by simp only [runStage, hs]
  rw [runS0_skip hskip] at hrun
  exact ⟨step_skip hs hskip, stepCycle_of_costed hrun rfl⟩

/-- Settles O32: S0 costs its cycle, so the cycle is its fetch alone. -/
theorem fetchCycleStandsAlone : Obligations.FetchCycleStandsAlone := by
  intro s hclean hskip
  have hrun : runStage s = .ok (runS0 s) := by simp only [runStage, clean_stage hclean]
  rw [runS0_fetch hskip] at hrun
  have hreport : Report.none.add (if s.wordAtPc = 0 then some { addr := s.pc, pc := s.pc + 1 } else none) =
      if s.readMem s.pc = 0 then { retired := 1, last := some { addr := s.pc, pc := s.pc + 1 } } else Report.none := by
    by_cases hw : s.readMem s.pc = 0
    · exact (congrArg Report.none.add (if_pos hw)).trans (if_pos hw).symm
    · exact (congrArg Report.none.add (if_neg hw)).trans (if_neg hw).symm
  rw [stepCycle_of_costed hrun rfl, hreport]
  rfl

/-- Settles O33: BURN costs its cycle, so the cycle is that stage alone. -/
theorem burnCycleIsIdle : Obligations.BurnCycleIsIdle := by
  intro s hs
  have hrun : runStage s = .ok (runBurn s) := by simp only [runStage, hs]
  refine ⟨_, stepCycle_of_costed hrun (runBurn_costed s), ?_⟩
  by_cases hleft : s.burnLeft - 1 = 0
  · rw [runBurn_last hleft]
    exact ⟨rfl, rfl, rfl, rfl, rfl, rfl, hleft.symm, fun _ => ⟨retire_clean s, rfl⟩, fun hmore => by omega⟩
  · rw [runBurn_more hleft]
    exact ⟨rfl, rfl, rfl, rfl, rfl, rfl, rfl, fun hone => by omega, fun _ => ⟨hs, rfl⟩⟩

/-- Settles O35: the free stages of a cycle retire one instruction at most, and when they have, the costed stage that
ends the cycle is S0, which retires nothing but a zero word. -/
theorem retireReportOfACycle : Obligations.RetireReportOfACycle := by
  intro s r hi h
  obtain ⟨rep, t, q, hq⟩ := exists_freeThenCosted Report.none hi
  cases (hq.stepCycle_eq hi).symm.trans h
  obtain rfl | ⟨hs0, l, rfl⟩ := hq.free.report_eq hi
  · cases q.retired <;> simp [Report.add, Report.none]
  · cases hl : q.retired with
    | none => simp [Report.add, Report.none]
    | some l' =>
      have hclean := clean_of_s0 (sound_of_runStage hq.inv hq.run).inv
        ((runStage_move hq.inv hq.run).to_s0_of_retired hl)
      have hrun : runStage t = .ok (runS0 t) := by simp only [runStage, hs0]
      cases hrun.symm.trans hq.run
      obtain ⟨hw, hstate, rfl⟩ := runS0_retired hl
      have hpc : t.fetchFirstWord.pc - 1 = t.pc := BitVec.add_sub_cancel t.pc 1
      rw [hstate] at hclean ⊢
      refine ⟨by simp [Report.add, Report.none], by simp [Report.add, Report.none], fun _ => ⟨hclean, ?_, ?_⟩⟩
      · rw [addCycles_pc, hpc]
        rfl
      · rw [addCycles_pc, hpc]
        exact hw

end Sys2Proof

/-! SUPPORT. The façade's `step_instruction`: the cycles that an instruction can still take until it retires, which
every cycle without a retirement lowers, and the stage in which a cycle with one ends. -/

namespace Sys2Proof.Machine

/-! ### Cycles until a retirement -/

/-- A bound on the cycles until an instruction retires: one for each stage left, and one for a skip that S0 has to take
first. A skip pending in BURN is not counted: it falls to the instruction after. -/
def State.untilRetirement (s : State) : Nat := s.stage.left + (s.stage == .s0 && s.skip).toNat

theorem untilRetirement_of_ne_s0 {s : State} (h : s.stage ≠ .s0) : s.untilRetirement = s.stage.left := by
  simp [State.untilRetirement, h]

theorem untilRetirement_of_no_skip {s : State} (h : s.skip = false) : s.untilRetirement = s.stage.left := by
  simp [State.untilRetirement, h]

theorem untilRetirement_of_skip {s : State} (hs : s.stage = .s0) (hskip : s.skip = true) :
    s.untilRetirement = 6 := by
  simp [State.untilRetirement, hs, hskip, Stage.left]

theorem untilRetirement_pos (s : State) : 0 < s.untilRetirement := by
  have hleft : 0 < s.stage.left := by cases s.stage <;> decide
  exact hleft.trans_le (Nat.le_add_right ..)

theorem untilRetirement_le_retireBound (s : State) : s.untilRetirement ≤ retireBound := by
  have hleft : s.stage.left ≤ 5 := by cases s.stage <;> decide
  exact Nat.add_le_add hleft (Bool.toNat_le _)

/-! ### What a stage does to the bound -/

section Move

variable {p q : Stage} {costed : Bool} {retired : Option Retirement}

/-- Past S0, the way back to it is a retirement. -/
theorem StageMove.ne_s0_of_not_retired (h : StageMove p costed retired q) (hp : p ≠ .s0) (hr : retired = none) :
    q ≠ .s0 := by
  subst hr
  cases h
  case passOver | fetch => exact absurd rfl hp
  all_goals decide

theorem StageMove.of_s0 (h : StageMove p costed retired q) (hp : p = .s0) : q = .s0 ∨ q = .s1 := by
  subst hp
  cases h <;> decide

end Move

/-- A stage that retires nothing lowers the bound: it takes the skip, or leads to a later stage. -/
theorem untilRetirement_lt_of_runStage {s : State} {r : StageRun} (hi : s.Inv) (h : runStage s = .ok r)
    (hr : r.retired = none) : r.state.untilRetirement < s.untilRetirement := by
  have hmove := runStage_move hi h
  by_cases hs : s.stage = .s0
  · have hrun : runStage s = .ok (runS0 s) := by simp only [runStage, hs]
    cases hrun.symm.trans h
    cases hskip : s.skip with
    | true =>
      have hpassed : s.skipNext.untilRetirement = s.stage.left := untilRetirement_of_no_skip rfl
      rw [untilRetirement_of_skip hs hskip, runS0_skip hskip, hpassed, hs]
      decide
    | false =>
      rw [runS0_fetch hskip] at hr ⊢
      have hw : s.wordAtPc ≠ 0 := by simpa using hr
      have hs1 : s.fetchFirstWord.stage = .s1 := if_neg hw
      rw [untilRetirement_of_no_skip hskip, untilRetirement_of_no_skip (s := s.fetchFirstWord) hskip, hs1, hs]
      decide
  · have hne := hmove.ne_s0_of_not_retired hs hr
    rw [untilRetirement_of_ne_s0 hs, untilRetirement_of_ne_s0 hne]
    exact hmove.left_lt.resolve_left hne

/-- Free stages that retire nothing do not raise the bound. -/
theorem FreeStages.untilRetirement_le {rep rep' : Report} {s t : State} (h : FreeStages rep s rep' t) (hi : s.Inv)
    (hrep : rep'.last = .none) : t.untilRetirement ≤ s.untilRetirement := by
  induction h with
  | none => exact le_rfl
  | @head _ _ _ _ r hr hfree rest ih =>
    have hinv := (sound_of_runStage hi hr).inv
    cases hl : r.retired with
    | none => exact (ih hinv hrep).trans (untilRetirement_lt_of_runStage hi hr hl).le
    | some l =>
      obtain ⟨rfl, -⟩ := rest.of_s0 hinv ((runStage_move hi hr).to_s0_of_retired hl)
      simp [hl, Report.add] at hrep

/-! ### What a cycle does to the bound -/

/-- A cycle retires nothing and lowers the bound, or it retires an instruction and ends in S0 or, when a free
retirement let it fetch the next one, in S1. -/
theorem stepCycle_progress {s : State} {r : CycleResult} (hi : s.Inv) (h : stepCycle s = .ok r) :
    (r.report.last = none ∧ r.state.untilRetirement < s.untilRetirement) ∨
    ((∃ l, r.report.last = some l) ∧ (r.state.stage = .s0 ∨ r.state.stage = .s1)) := by
  obtain ⟨rep, t, q, hq⟩ := exists_freeThenCosted Report.none hi
  cases (hq.stepCycle_eq hi).symm.trans h
  have hmove := runStage_move hq.inv hq.run
  cases hl : q.retired with
  | some l => exact .inr ⟨⟨l, rfl⟩, .inl (hmove.to_s0_of_retired hl)⟩
  | none =>
    obtain rfl | ⟨hs0, l, rfl⟩ := hq.free.report_eq hi
    · have hlt := untilRetirement_lt_of_runStage hq.inv hq.run hl
      exact .inl ⟨rfl, hlt.trans_le (hq.free.untilRetirement_le hi rfl)⟩
    · exact .inr ⟨⟨l, rfl⟩, hmove.of_s0 hs0⟩

/-! ### The façade's loops answer -/

/-- `t` is reached from `s` after `n` cycles, at a retirement: the cycles are counted alike by the machine and by the
loop, which started its count at `elapsed`. -/
structure ToRetirement.ReachedIn (t : ToRetirement) (n elapsed : Nat) (s : State) : Prop where
  inv : t.state.Inv
  stage : t.state.stage = .s0 ∨ t.state.stage = .s1
  cycles : t.state.cycles = s.cycles + n
  elapsed : t.elapsed = elapsed + n

/-- Fuel for the bound is enough, by induction on the fuel. -/
theorem runToRetirement_answers (fuel : Nat) : ∀ (elapsed : Nat) (s : State), s.Inv → s.untilRetirement ≤ fuel →
    ∃ t n, runToRetirement fuel elapsed s = .ok (some t) ∧ t.ReachedIn n elapsed s ∧ 1 ≤ n ∧ n ≤ fuel := by
  induction fuel with
  | zero => exact fun _ s _ hfuel => absurd hfuel (untilRetirement_pos s).not_ge
  | succ fuel ih =>
    intro elapsed s hi hfuel
    obtain ⟨r, hr, hinv, hcount⟩ := stepCycle_sound hi
    obtain ⟨hlast, hlt⟩ | ⟨⟨l, hlast⟩, hstage⟩ := stepCycle_progress hi hr
    · obtain ⟨t, n, ht, hreached, -, hn⟩ := ih (elapsed + 1) r.state hinv (by omega)
      have hcycles := hreached.cycles
      have helapsed := hreached.elapsed
      exact ⟨t, n + 1, (runToRetirement_not_retired fuel elapsed hr hlast).trans ht,
        { hreached with cycles := by omega, elapsed := by omega }, by omega, by omega⟩
    · exact ⟨_, 1, runToRetirement_retired fuel elapsed hr hlast, ⟨hinv, hstage, hcount, rfl⟩, le_rfl, by omega⟩

/-- A cycle in S0 with a skip pending takes it. -/
theorem stepCycle_takes_skip {s : State} (hs : s.stage = .s0) (hskip : s.skip = true) :
    ∃ r, stepCycle s = .ok r ∧ r.state.skip = false :=
  ⟨_, stepCycle_s0 hs, by rw [runS0_skip (s := s.addCycles 1) hskip]; rfl⟩

theorem consumeSkip_of_no_skip {t : ToRetirement} (h : t.state.skip = false) : consumeSkip t = .ok t := by
  simp only [consumeSkip, h, Bool.false_eq_true, if_false]

theorem consumeSkip_of_skip {t : ToRetirement} {r : CycleResult} (h : t.state.skip = true)
    (hr : stepCycle t.state = .ok r) :
    consumeSkip t = .ok { t with state := r.state, elapsed := t.elapsed + 1 } := by
  simp only [consumeSkip, h, if_true, hr]

/-- After a retirement one cycle at most consumes the skip: pending, it is pending in S0. -/
theorem consumeSkip_answers {t : ToRetirement} (hi : t.state.Inv)
    (hstage : t.state.stage = .s0 ∨ t.state.stage = .s1) :
    ∃ u n, consumeSkip t = .ok u ∧ u.state.Inv ∧ u.state.skip = false ∧
      u.state.cycles = t.state.cycles + n ∧ u.elapsed = t.elapsed + n ∧ n ≤ 1 := by
  cases hskip : t.state.skip with
  | false => exact ⟨t, 0, consumeSkip_of_no_skip hskip, hi, hskip, rfl, rfl, Nat.zero_le 1⟩
  | true =>
    have hs0 : t.state.stage = .s0 := hstage.resolve_right fun hs1 => by
      obtain ⟨-, -, -, -, hnone⟩ := (sequencerOk_s1 hs1).mp hi.1
      simp [hskip] at hnone
    obtain ⟨r, hr, hinv, hcount⟩ := stepCycle_sound hi
    obtain ⟨q, hq, htaken⟩ := stepCycle_takes_skip hs0 hskip
    cases hq.symm.trans hr
    exact ⟨_, 1, consumeSkip_of_skip hskip hr, hinv, htaken, hcount, rfl, le_rfl⟩

theorem stepInstruction_of_run {s : State} {t u : ToRetirement} (ht : runToRetirement retireBound 0 s = .ok (some t))
    (hu : consumeSkip t = .ok u) : stepInstruction s = .ok (some { state := u.state, elapsed := u.elapsed }) := by
  simp only [stepInstruction, instructionTurn, ht, hu]

end Sys2Proof.Machine

namespace Sys2Proof

open Machine

/-- Settles O46: an instruction retires within the bound's six cycles, and one more consumes the skip it caused. -/
theorem stepInstructionAnswers : Obligations.StepInstructionAnswers := by
  intro s hi
  obtain ⟨t, n, ht, hreached, hpos, hn⟩ := runToRetirement_answers retireBound 0 s hi (untilRetirement_le_retireBound s)
  obtain ⟨u, m, hu, hinv, hskip, hucycles, huelapsed, hm⟩ := consumeSkip_answers hreached.inv hreached.stage
  have hcycles := hreached.cycles
  have helapsed := hreached.elapsed
  rw [retireBound] at hn
  refine ⟨_, stepInstruction_of_run ht hu, hinv, hskip, ?_, ?_, ?_⟩ <;> dsimp only <;> omega

end Sys2Proof

/-! SUPPORT. No step stops (60_exceptions.md R220). -/

namespace Sys2Proof

open Machine

/-- Settles O40: `step` stops only in an execute stage that lacks an operand, and the stages that a step runs, taken one
by one in `step_cyclesThenFlush`, keep the invariant, by which S3 has its operands. -/
theorem stepNeverStops : Obligations.StepNeverStops := by
  intro s hi
  obtain ⟨_, t, hstep, -⟩ := step_cyclesThenFlush hi
  exact ⟨t, hstep⟩

end Sys2Proof
